-- ==== Sys2Proof/Word.lean ====
section
/-! DEFINITION. The word types of U32AU (00_scope R4, section 4; 30_encoding R60). -/

namespace Sys2Proof

/-- A uint32 value: the content of one 32-bit port or register (00_scope R4). -/
abbrev Word := BitVec 32

/-- A byte, in [0, 255] (00_scope section 4). -/
abbrev Byte := BitVec 8

/-- The 8-bit command word `CMD` (30_encoding R60). -/
abbrev CmdWord := BitVec 8

end Sys2Proof
end

