-- ==== Sys2Proof/Config.lean ====
section
/-! DEFINITION. What an implementation of U32AU fixes and the spec leaves open: one timing parameter, and what the registers
hold at power-up. -/

namespace Sys2Proof

/-- How many edges beyond the first an implementation takes to answer. The spec leaves it open (92_eei_decisions D24), so it
has no body here. -/
opaque Config.extraLatency : Nat

/-- `LATENCY`, a positive integer (92_eei_decisions D24, 70_reset_and_hazards R241). No rule of the spec and no definition of
this model reads it: one step of the model is one edge at the transaction level. -/
def Config.latency : Nat := 1 + Config.extraLatency

/-- What `RES_LO` holds from power-up to the first reset: unspecified (70_reset_and_hazards R232). -/
opaque Config.powerUpLo : Word

/-- What `RES_HI` holds from power-up to the first reset: unspecified (70_reset_and_hazards R232). -/
opaque Config.powerUpHi : Word

/-- What `STATUS` holds from power-up to the first reset: unspecified (70_reset_and_hazards R232). -/
opaque Config.powerUpStatus : BitVec 3

end Sys2Proof
end

