-- ==== Sys2Proof/Syntax.lean ====
section
/-! DEFINITION. The fourteen commands of U32AU as syntax, and the command as it stands on the ports. -/

namespace Sys2Proof

/-- A command as the host presents it: the tuple (`CMD`, `A`, `B`, `C`, `D`) of 10_state R21 and 30_encoding R60. -/
structure Command where
  cmd : CmdWord
  opA : Word
  opB : Word
  opC : Word
  opD : Word
  deriving DecidableEq, Repr

/-- One constructor per row of the opcode table (30_encoding R62). A constructor carries the whole words of the ports its
format reads (30_encoding R65), in port order; which bits of them count is decided by the meaning (30_encoding R66). The
three folds carry the operands their `NM1` selects, one to four of them (30_encoding R63). -/
inductive Instr where
  | pack (b0 b1 b2 b3 : Word)
  | getb (value byteNo : Word)
  | or (vs : List Word)
  | and (vs : List Word)
  | xor (vs : List Word)
  | not (value : Word)
  | shl (value n : Word)
  | shr (value n : Word)
  | rotl (value n : Word)
  | rotr (value n : Word)
  | ch (x y z : Word)
  | maj (x y z : Word)
  | log2 (value : Word)
  | mul (a b : Word)
  deriving DecidableEq, Repr

end Sys2Proof
end

