-- ==== Sys2Proof/Machine/State.lean ====
section
/-! DEFINITION. The state of U32AU, the names of its stops, and the state after reset (10_state). -/

namespace Sys2Proof.Machine

/-- The values of the block's input ports at one rising edge of `clk` (10_state R20, R21). -/
structure PortSample where
  rst      : Bool
  cmdValid : Bool
  command  : Command   -- `cmd_word`, `op_a`, `op_b`, `op_c`, `op_d`
  deriving DecidableEq, Repr

/-- The state. `resLo`, `resHi` and `status` are the block's whole state, 67 bits (10_state R22, R23, R30). The other three
fields are the model's own: what stands outside the block or is only recorded about it. -/
structure State where
  /-- `RES_LO` (10_state R22). -/
  resLo : Word
  /-- `RES_HI` (10_state R22). -/
  resHi : Word
  /-- `STATUS`: bit 0 `RVALID`, bit 1 `NINF`, bit 2 `ILL` (10_state R23). -/
  status : BitVec 3
  /-- Whether an edge with `rst = 1` has happened since power-up (70_reset_and_hazards R232, R234). -/
  wasReset : Bool
  /-- What the host drives on the input ports at the coming rising edges, soonest first (60_exceptions R213). -/
  inputs : List PortSample
  /-- The command word of every illegal command executed, oldest first; no step removes one
  (93_implementation_defined U6). -/
  faultRecord : List CmdWord
  deriving DecidableEq, Repr

/-- Faults of the model. No step and no command raises one (60_exceptions R200); an illegal command is a next state. -/
inductive Fault where
  /-- Raised by `readOutputs` alone: the host reads a register before the first reset, when it holds no value
  (93_implementation_defined U8). Safe: nothing is claimed about what such a read shows. -/
  | unresetRead
  deriving DecidableEq, Repr

/-- Refusals. -/
inductive Refusal where
  /-- An instruction whose meaning is not written yet. Raised only by arms of `exec` that reject by name, of which there are
  none. Safe. -/
  | notModelled (mnemonic : String)
  /-- Raised by `step`: a command is presented before the first reset, and the spec gives it no meaning
  (70_reset_and_hazards R232). Safe: nothing is claimed about such a command. -/
  | commandBeforeReset
  /-- Raised by the three folds on a term with no operand or more than four: there is no such command
  (93_implementation_defined U4, 30_encoding R63). The decoder never makes such a term. Safe. -/
  | foldOperandCount
  deriving DecidableEq, Repr

/-- How a step or a meaning ends. -/
abbrev Result := Host.Outcome State Fault Refusal

/-- The state `S0` just after a reset edge (10_state R31, 70_reset_and_hazards R230), with nothing yet driven by the host and
nothing recorded. A run starts here (70_reset_and_hazards R232, R242). -/
def State.reset : State where
  resLo := 0
  resHi := 0
  status := 0
  wasReset := true
  inputs := []
  faultRecord := []

end Sys2Proof.Machine
end

