-- ==== Sys2Proof/Machine/Flags.lean ====
section
/-! DEFINITION. The bits of `STATUS` and the three values a command leaves in it (10_state R23, R29; 60_exceptions R201). -/

namespace Sys2Proof.Machine

/-- `STATUS` from its three bits (10_state R23). -/
def packStatus (rvalid ninf ill : Bool) : BitVec 3 :=
  BitVec.ofBool ill ++ BitVec.ofBool ninf ++ BitVec.ofBool rvalid

/-- `RVALID`, bit 0 of `STATUS` (10_state R23). -/
def rvalidBit (status : BitVec 3) : Bool := status.getLsbD 0

/-- `NINF`, bit 1 of `STATUS` (10_state R23). -/
def ninfBit (status : BitVec 3) : Bool := status.getLsbD 1

/-- `ILL`, bit 2 of `STATUS` (10_state R23). -/
def illBit (status : BitVec 3) : Bool := status.getLsbD 2

/-- `STATUS` after a legal command (10_state R29, 41_bytes R100): `RVALID` set, `ILL` clear, `NINF` as given. -/
def legalStatus (ninf : Bool) : BitVec 3 := packStatus true ninf false

/-- `STATUS` after an illegal command (60_exceptions R202). -/
def illegalStatus : BitVec 3 := packStatus true false true

/-- `STATUS` after reset (10_state R31). -/
def resetStatus : BitVec 3 := packStatus false false false

/-- The only command that sets `NINF` is `LOG2`, on the operand 0 (10_state R29, 45_log2 R171). -/
def log2Ninf (v : Word) : Bool := v == 0

end Sys2Proof.Machine
end

