-- ==== Sys2Proof/Machine/Operands.lean ====
section
/-! DEFINITION. Operand assembly: which bits of a port a command reads, and the pieces it cuts a word into (30_encoding R66). -/

namespace Sys2Proof.Machine

/-- A byte operand of `PACK`: the low 8 bits of its port (41_bytes R101). -/
def lowByte (w : Word) : Byte := w.extractLsb' 0 8

/-- `byteNo = B[1:0]` (41_bytes R102). -/
def byteIndex (w : Word) : Nat := (w.extractLsb' 0 2).toNat

/-- The amount of a shift or rotate, `n = B[4:0]` (43_shift_rotate R140). -/
def shiftAmount (w : Word) : Nat := (w.extractLsb' 0 5).toNat

/-- The low 16-bit half of a word (46_mult R182). -/
def lowHalf (w : Word) : BitVec 16 := w.extractLsb' 0 16

/-- The high 16-bit half of a word (46_mult R182). -/
def highHalf (w : Word) : BitVec 16 := w.extractLsb' 16 16

/-- A narrow result is zero-extended into `RES_LO` (30_encoding R66). -/
def zext32 {n : Nat} (v : BitVec n) : Word := v.setWidth 32

/-- The operands of a fold taken apart: the first one and up to three more; nothing where the count is not one to four
(42_logic R120, 93_implementation_defined U4). -/
def foldOperands : List Word → Option (Word × List Word)
  | [] => none
  | v :: vs => if vs.length ≤ 3 then some (v, vs) else none

/-- The left fold of a bitwise operator over one to four operands: with one operand, the operand itself (42_logic R120). -/
def leftFold (op : Word → Word → Word) (vs : List Word) : Option Word :=
  (foldOperands vs).map fun p => p.2.foldl op p.1

end Sys2Proof.Machine
end

