-- ==== Sys2Proof/Machine/Ops.lean ====
section
/-! DEFINITION. The operations on the state that commands, reset and the host share. The block has no memory and takes no
trap (20_memory R40, 60_exceptions R204): what an illegal command does is `respondIllegal`, the one shared operation for it. -/

namespace Sys2Proof.Machine

/-- `respond(lo, hi, ninf)` (00_scope R7, 10_state R24): the five response fields in one update. -/
def respond (lo hi : Word) (ninf : Bool) (s : State) : State :=
  { s with resLo := lo, resHi := hi, status := legalStatus ninf }

/-- A command that answers with one word (41_bytes R100). -/
def respondWord (lo : Word) (s : State) : State := respond lo 0 false s

/-- Notes the command word of an illegal command in the fault record (93_implementation_defined U6). -/
def recordFault (cmd : CmdWord) (s : State) : State :=
  { s with faultRecord := s.faultRecord ++ [cmd] }

/-- `respond_illegal()` (00_scope R7, 60_exceptions R202), and the model's record of it. -/
def respondIllegal (cmd : CmdWord) (s : State) : State :=
  recordFault cmd { s with resLo := 0, resHi := 0, status := illegalStatus }

/-- What an edge with `rst = 1` does (70_reset_and_hazards R230). The fault record stays (93_implementation_defined U6). -/
def applyReset (s : State) : State :=
  { s with resLo := 0, resHi := 0, status := resetStatus, wasReset := true }

/-- What a fold answers: one word, or a refusal where the operand count has no encoding (42_logic R120). -/
def respondFold (op : Word → Word → Word) (vs : List Word) (s : State) : Result :=
  match leftFold op vs with
  | some r => .next (respondWord r s)
  | none => .refused .foldOperandCount

/-- The port values of an edge at which the host presents nothing (10_state R25). -/
def idleSample : PortSample := ⟨false, false, ⟨0, 0, 0, 0, 0⟩⟩

/-- The port values of an edge at which the host presents a command (10_state R21). -/
def commandSample (c : Command) : PortSample := ⟨false, true, c⟩

/-- The port values of an edge at which the host asserts reset (70_reset_and_hazards R230). -/
def resetSample : PortSample := ⟨true, false, ⟨0, 0, 0, 0, 0⟩⟩

/-- The port values at the coming edge. A host with nothing more to drive idles (DESIGN CHOICE, notes/assumptions/2.md). -/
def portsNow (s : State) : PortSample := s.inputs.headD idleSample

/-- The edge has passed: its port values have no further effect (10_state R21). -/
def consumeSample (s : State) : State := { s with inputs := s.inputs.tail }

/-- The host drives the given port values at the coming edge, in place of what it was going to drive there. -/
def drive (p : PortSample) (s : State) : State := { s with inputs := p :: s.inputs.tail }

/-- The host presents a command to a block that has been reset: what must stand for the coming edge to execute it. -/
def placeCommand (c : Command) (s : State) : State :=
  { drive (commandSample c) s with wasReset := true }

/-- The state at power-up, before any reset, with what the host is going to drive: the registers are unspecified
(70_reset_and_hazards R232, 93_implementation_defined U8). -/
def powerUp (inputs : List PortSample) : State where
  resLo := Config.powerUpLo
  resHi := Config.powerUpHi
  status := Config.powerUpStatus
  wasReset := false
  inputs := inputs
  faultRecord := []

end Sys2Proof.Machine
end

