-- ==== Sys2Proof/Machine/Bytes.lean ====
section
/-! DEFINITION. `PACK` and `GETB` (41_bytes). -/

namespace Sys2Proof.Machine

/-- `b0 ++ b1 ++ b2 ++ b3`, the first byte most significant (41_bytes R101, 20_memory R42). -/
def packBytes (b0 b1 b2 b3 : Byte) : Word := b0 ++ b1 ++ b2 ++ b3

/-- Byte `i` of a word, byte 0 most significant (41_bytes R102). -/
def byteOf (v : Word) (i : Nat) : Byte := (v >>> (8 * (3 - i))).extractLsb' 0 8

/-- `PACK` (41_bytes R101). -/
def execPack (b0 b1 b2 b3 : Word) (s : State) : Result :=
  .next (respondWord (packBytes (lowByte b0) (lowByte b1) (lowByte b2) (lowByte b3)) s)

/-- `GETB` (41_bytes R102). -/
def execGetb (value byteNo : Word) (s : State) : Result :=
  .next (respondWord (zext32 (byteOf value (byteIndex byteNo))) s)

end Sys2Proof.Machine
end

