-- ==== Sys2Proof/Machine/Gates.lean ====
section
/-! DEFINITION. `CH` and `MAJ` (44_gates), as whole-word expressions (44_gates R160). -/

namespace Sys2Proof.Machine

/-- `(A & (B ^ C)) ^ C` (44_gates R161). -/
def choose (x y z : Word) : Word := (x &&& (y ^^^ z)) ^^^ z

/-- `(A & (B | C)) | (B & C)` (44_gates R162). -/
def majority (x y z : Word) : Word := (x &&& (y ||| z)) ||| (y &&& z)

/-- `CH` (44_gates R161). -/
def execCh (x y z : Word) (s : State) : Result := .next (respondWord (choose x y z) s)

/-- `MAJ` (44_gates R162). -/
def execMaj (x y z : Word) (s : State) : Result := .next (respondWord (majority x y z) s)

end Sys2Proof.Machine
end

