-- ==== Sys2Proof/Machine/Log2.lean ====
section
/-! DEFINITION. `LOG2` (45_log2): a bit scan, so exact on every operand (45_log2 R172). -/

namespace Sys2Proof.Machine

/-- The highest index at or below the given one whose bit of `v` is 1; 0 where there is none (45_log2 R171). -/
def highestBit (v : Word) : Nat → Nat
  | 0 => 0
  | k + 1 => if v.getLsbD (k + 1) then k + 1 else highestBit v k

/-- `ilog2`, of a word that is not 0 (45_log2 R170). -/
def ilog2 (v : Word) : Nat := highestBit v 31

/-- The word that stands in `RES_LO` when the result is negative infinity; it is no number (45_log2 R171, 92_eei_decisions
D16). -/
def ninfFiller : Word := 0xFFFFFFFF

/-- `LOG2` (45_log2 R171). -/
def execLog2 (value : Word) (s : State) : Result :=
  .next (respond (if value = 0 then ninfFiller else BitVec.ofNat 32 (ilog2 value)) 0 (log2Ninf value) s)

/-- The result of a logarithm as a sum type (45_log2 R171, 93_implementation_defined U7). -/
inductive LogResult where
  | negInf
  | finite (k : Nat)
  deriving DecidableEq, Repr

/-- The result of a `LOG2` command, from `NINF` and `RES_LO` (45_log2 R171). -/
def logResult (s : State) : LogResult :=
  if ninfBit s.status then .negInf else .finite s.resLo.toNat

end Sys2Proof.Machine
end

