-- ==== Sys2Proof/Machine/Logic.lean ====
section
/-! DEFINITION. `OR`, `AND`, `XOR`, `NOT` (42_logic). -/

namespace Sys2Proof.Machine

/-- `OR` (42_logic R120, R121). -/
def execOr (vs : List Word) (s : State) : Result := respondFold (· ||| ·) vs s

/-- `AND` (42_logic R120, R122). -/
def execAnd (vs : List Word) (s : State) : Result := respondFold (· &&& ·) vs s

/-- `XOR` (42_logic R120, R123). -/
def execXor (vs : List Word) (s : State) : Result := respondFold (· ^^^ ·) vs s

/-- `NOT` (42_logic R124). -/
def execNot (value : Word) (s : State) : Result := .next (respondWord (~~~value) s)

end Sys2Proof.Machine
end

