-- ==== Sys2Proof/Machine/Mult.lean ====
section
/-! DEFINITION. `MUL` (46_mult): the exact product by R181, and beside it the reference dataflow of R182. -/

namespace Sys2Proof.Machine

/-- The exact product at 64 bits (46_mult R180, R181). -/
def product (a b : Word) : BitVec 64 := BitVec.ofNat 64 (a.toNat * b.toNat)

/-- `MUL` (46_mult R181): high word in `RES_HI`, low word in `RES_LO`. -/
def execMul (a b : Word) (s : State) : Result :=
  .next (respond ((product a b).extractLsb' 0 32) ((product a b).extractLsb' 32 32) false s)

/-- One partial product of two 16-bit halves, at 32 bits (46_mult R182). -/
def partialProduct (x y : BitVec 16) : Word := zext32 x * zext32 y

/-- The sum of the middle 16-bit column, at 18 bits (46_mult R182). -/
def middleColumn (p0 p1 p2 : Word) : BitVec 18 :=
  (highHalf p0).setWidth 18 + (lowHalf p1).setWidth 18 + (lowHalf p2).setWidth 18

/-- The reference dataflow of the multiplier, as the pair (high word, low word) (46_mult R182, 92_eei_decisions D17). No
command uses it: `MUL` is defined by R181, and 46_mult R183 says the two agree. -/
def multDataflow (a b : Word) : Word × Word :=
  let p0 := partialProduct (lowHalf a) (lowHalf b)
  let p1 := partialProduct (lowHalf a) (highHalf b)
  let p2 := partialProduct (highHalf a) (lowHalf b)
  let p3 := partialProduct (highHalf a) (highHalf b)
  let mid := middleColumn p0 p1 p2
  (p3 + zext32 (highHalf p1) + zext32 (highHalf p2) + zext32 (mid.extractLsb' 16 2),
    mid.extractLsb' 0 16 ++ lowHalf p0)

end Sys2Proof.Machine
end

