-- ==== Sys2Proof/Machine/ShiftRotate.lean ====
section
/-! DEFINITION. `SHL`, `SHR`, `ROTL`, `ROTR` (43_shift_rotate). -/

namespace Sys2Proof.Machine

/-- Rotation to the left by `n` below 32, with the case `n = 0` apart so that no shift by 32 is written
(43_shift_rotate R143, 90_conflicts C6). -/
def rotateLeft (v : Word) (n : Nat) : Word :=
  if n = 0 then v else (v <<< n) ||| (v >>> (32 - n))

/-- Rotation to the right by `n` below 32 (43_shift_rotate R144). -/
def rotateRight (v : Word) (n : Nat) : Word :=
  if n = 0 then v else (v >>> n) ||| (v <<< (32 - n))

/-- `SHL` (43_shift_rotate R140, R141). -/
def execShl (value n : Word) (s : State) : Result := .next (respondWord (value <<< shiftAmount n) s)

/-- `SHR` (43_shift_rotate R140, R142). -/
def execShr (value n : Word) (s : State) : Result := .next (respondWord (value >>> shiftAmount n) s)

/-- `ROTL` (43_shift_rotate R140, R143). -/
def execRotl (value n : Word) (s : State) : Result := .next (respondWord (rotateLeft value (shiftAmount n)) s)

/-- `ROTR` (43_shift_rotate R140, R144). -/
def execRotr (value n : Word) (s : State) : Result := .next (respondWord (rotateRight value (shiftAmount n)) s)

end Sys2Proof.Machine
end

