-- ==== Sys2Proof/Machine/Dispatch.lean ====
section
/-! DEFINITION. `Execute` on a decoded command: one arm per constructor of `Instr` (10_state R24, 30_encoding R70). -/

namespace Sys2Proof.Machine

/-- The meaning of each command (10_state R24). -/
def exec (i : Instr) (s : State) : Host.Outcome State Fault Refusal :=
  match i with
  | .pack b0 b1 b2 b3 => Sys2Proof.Machine.execPack b0 b1 b2 b3 s
  | .getb value byteNo => Sys2Proof.Machine.execGetb value byteNo s
  | .or vs => Sys2Proof.Machine.execOr vs s
  | .and vs => Sys2Proof.Machine.execAnd vs s
  | .xor vs => Sys2Proof.Machine.execXor vs s
  | .not value => Sys2Proof.Machine.execNot value s
  | .shl value n => Sys2Proof.Machine.execShl value n s
  | .shr value n => Sys2Proof.Machine.execShr value n s
  | .rotl value n => Sys2Proof.Machine.execRotl value n s
  | .rotr value n => Sys2Proof.Machine.execRotr value n s
  | .ch x y z => Sys2Proof.Machine.execCh x y z s
  | .maj x y z => Sys2Proof.Machine.execMaj x y z s
  | .log2 value => Sys2Proof.Machine.execLog2 value s
  | .mul a b => Sys2Proof.Machine.execMul a b s

end Sys2Proof.Machine
end

