-- ==== Sys2Proof/WellFormed.lean ====
section
/-! DEFINITION. Which terms of `Instr` are commands of the block. -/

namespace Sys2Proof

/-- A fold command has one to four operands: `NM1` encodes no other count (30_encoding R63, 93_implementation_defined U4). -/
def foldCountOk (vs : List Word) : Bool := decide (1 ≤ vs.length ∧ vs.length ≤ 4)

/-- The terms that have a command word. Only the operand count of a fold can be wrong: every word is legal on every port
(00_scope R9, 60_exceptions R200). -/
def Instr.wellFormed : Instr → Bool
  | .pack _ _ _ _ => true
  | .getb _ _ => true
  | .or vs => foldCountOk vs
  | .and vs => foldCountOk vs
  | .xor vs => foldCountOk vs
  | .not _ => true
  | .shl _ _ => true
  | .shr _ _ => true
  | .rotl _ _ => true
  | .rotr _ _ => true
  | .ch _ _ _ => true
  | .maj _ _ _ => true
  | .log2 _ => true
  | .mul _ _ => true

end Sys2Proof
end

