-- ==== Sys2Proof/Decode.lean ====
section
/-! DEFINITION. The decoder, total on every command, and after it the encoder (30_encoding). -/

namespace Sys2Proof

/-- `OP = CMD[3:0]` (30_encoding R60). -/
def opField (cmd : CmdWord) : BitVec 4 := cmd.extractLsb' 0 4

/-- `NM1 = CMD[5:4]`, the operand count minus one of a fold (30_encoding R60, R63). -/
def nm1Field (cmd : CmdWord) : BitVec 2 := cmd.extractLsb' 4 2

/-- `RSV = CMD[7:6]`, which must be `00` (30_encoding R60, R64). -/
def rsvField (cmd : CmdWord) : BitVec 2 := cmd.extractLsb' 6 2

/-- The three kinds of illegal command word (30_encoding R71). They are all treated alike; the name only says why. -/
inductive IllegalReason where
  | reservedBits    -- `RSV` is not `00`
  | reservedOpcode  -- `OP` is 0xE or 0xF
  | operandCount    -- `NM1` is not `00` and the opcode is no fold
  deriving DecidableEq, Repr

/-- What the decoder answers: one of the fourteen commands, or an illegal command (30_encoding R72). -/
inductive Decoded where
  | legal (i : Instr)
  | illegal (why : IllegalReason)
  deriving DecidableEq, Repr

/-- The operands of a fold: the first `NM1 + 1` ports (30_encoding R63, 42_logic R120). -/
def foldPorts (c : Command) : List Word :=
  [c.opA, c.opB, c.opC, c.opD].take ((nm1Field c.cmd).toNat + 1)

/-- Whether an opcode is `OR`, `AND` or `XOR`, the three that use `NM1` (30_encoding R63). -/
def isFoldOp (op : Nat) : Bool := op == 0x2 || op == 0x3 || op == 0x4

/-- The command an opcode names, with the operand ports its format reads (30_encoding R62, R65); nothing for the two reserved
opcodes 0xE and 0xF. -/
def opcodeInstr (c : Command) : Nat → Option Instr
  | 0x0 => some (.pack c.opA c.opB c.opC c.opD)
  | 0x1 => some (.getb c.opA c.opB)
  | 0x2 => some (.or (foldPorts c))
  | 0x3 => some (.and (foldPorts c))
  | 0x4 => some (.xor (foldPorts c))
  | 0x5 => some (.not c.opA)
  | 0x6 => some (.shl c.opA c.opB)
  | 0x7 => some (.shr c.opA c.opB)
  | 0x8 => some (.rotl c.opA c.opB)
  | 0x9 => some (.rotr c.opA c.opB)
  | 0xA => some (.ch c.opA c.opB c.opC)
  | 0xB => some (.maj c.opA c.opB c.opC)
  | 0xC => some (.log2 c.opA)
  | 0xD => some (.mul c.opA c.opB)
  | _ => none

/-- The decoder (30_encoding R60 to R64, R70). It looks at `CMD` alone to choose the command or the name of what is wrong
(R61). Where several reasons hold, `RSV` is named before the opcode and the opcode before the count; the effect is the same
(R71; notes/assumptions/8.md). -/
def decode (c : Command) : Decoded :=
  if rsvField c.cmd ≠ 0#2 then .illegal .reservedBits
  else
    match opcodeInstr c (opField c.cmd).toNat with
    | none => .illegal .reservedOpcode
    | some i =>
      if isFoldOp (opField c.cmd).toNat = false ∧ nm1Field c.cmd ≠ 0#2 then .illegal .operandCount
      else .legal i

/-- `legal(CMD)` as 30_encoding R70 writes it. -/
def legalCmd (cmd : CmdWord) : Bool :=
  rsvField cmd == 0#2 &&
    ((opField cmd == 0x2#4 || opField cmd == 0x3#4 || opField cmd == 0x4#4) ||
      (decide (opField cmd ≤ 0xD#4) && nm1Field cmd == 0#2))

/-- A command word from its fields, `RSV` being `00` (30_encoding R60, R74). -/
def cmdOf (op : BitVec 4) (nm1 : BitVec 2) : CmdWord := 0#2 ++ nm1 ++ op

/-- A fold command: `NM1` is the operand count minus one, the operands stand in port order, and a port not read is driven
with zero (30_encoding R63, R74). -/
def foldCommand (op : BitVec 4) (vs : List Word) : Command :=
  ⟨cmdOf op (BitVec.ofNat 2 (vs.length - 1)), vs.getD 0 0, vs.getD 1 0, vs.getD 2 0, vs.getD 3 0⟩

/-- The encoder (30_encoding R62 to R66, R74): the command the assembler presents for a well-formed instruction, ports that
are not read driven with zero. For an ill-formed fold the answer means nothing; the assembler refuses it. -/
def encode : Instr → Command
  | .pack b0 b1 b2 b3 => ⟨cmdOf 0x0#4 0#2, b0, b1, b2, b3⟩
  | .getb v i => ⟨cmdOf 0x1#4 0#2, v, i, 0, 0⟩
  | .or vs => foldCommand 0x2#4 vs
  | .and vs => foldCommand 0x3#4 vs
  | .xor vs => foldCommand 0x4#4 vs
  | .not v => ⟨cmdOf 0x5#4 0#2, v, 0, 0, 0⟩
  | .shl v n => ⟨cmdOf 0x6#4 0#2, v, n, 0, 0⟩
  | .shr v n => ⟨cmdOf 0x7#4 0#2, v, n, 0, 0⟩
  | .rotl v n => ⟨cmdOf 0x8#4 0#2, v, n, 0, 0⟩
  | .rotr v n => ⟨cmdOf 0x9#4 0#2, v, n, 0, 0⟩
  | .ch x y z => ⟨cmdOf 0xA#4 0#2, x, y, z, 0⟩
  | .maj x y z => ⟨cmdOf 0xB#4 0#2, x, y, z, 0⟩
  | .log2 v => ⟨cmdOf 0xC#4 0#2, v, 0, 0, 0⟩
  | .mul a b => ⟨cmdOf 0xD#4 0#2, a, b, 0, 0⟩

/-- A command from one number: `CMD` in bits 7 to 0 as the opcode table numbers them, then `A`, `B`, `C`, `D` upwards, 32
bits each. The block itself has five parallel ports and no such order (20_memory R43); the placing of the operands is the
model's convention (DESIGN CHOICE, notes/assumptions/5.md). -/
def commandOfBits (w : Nat) : Command :=
  ⟨BitVec.ofNat 8 w, BitVec.ofNat 32 (w >>> 8), BitVec.ofNat 32 (w >>> 40), BitVec.ofNat 32 (w >>> 72),
    BitVec.ofNat 32 (w >>> 104)⟩

/-- What the decoder reads from the low `nbits` bits of `w`, every bit above them being zero. -/
def decodeTableWord (nbits w : Nat) : Option Instr :=
  match decode (commandOfBits (w % 2 ^ nbits)) with
  | .legal i => some i
  | .illegal _ => none

end Sys2Proof
end

