-- ==== Sys2Proof/Machine/Edge.lean ====
section
/-! DEFINITION. What one rising edge of `clk` is: reset, idle, a command, in the priority of 60_exceptions R203. -/

namespace Sys2Proof.Machine

/-- What an edge turns out to be. -/
inductive EdgeEvent where
  | reset                   -- `rst = 1`
  | idle                    -- `rst = 0`, `cmd_valid = 0`
  | beforeReset             -- a command, but no reset has happened yet
  | illegal (cmd : CmdWord) -- an accepted command whose word is not legal
  | execute (i : Instr)     -- an accepted legal command
  deriving DecidableEq, Repr

/-- The event of an accepted command: `CMD` alone says whether it is legal (30_encoding R61, R70). -/
def commandEvent (c : Command) : EdgeEvent :=
  match decode c with
  | .legal i => .execute i
  | .illegal _ => .illegal c.cmd

/-- The event of the coming edge. `rst` wins over everything (60_exceptions R203, 70_reset_and_hazards R230); without
`cmd_valid` the other ports are ignored (10_state R21, R25); a command before the first reset has no meaning
(70_reset_and_hazards R232). -/
def edgeEvent (s : State) : EdgeEvent :=
  let p := portsNow s
  if p.rst then .reset
  else if !p.cmdValid then .idle
  else if !s.wasReset then .beforeReset
  else commandEvent p.command

end Sys2Proof.Machine
end

