-- ==== Sys2Proof/Machine/Step.lean ====
section
/-! DEFINITION. One step of the model: one rising edge of `clk` (10_state R20, R21, R24, R25; 70_reset_and_hazards R230). -/

namespace Sys2Proof.Machine

/-- One rising edge. The port values of the edge are used up, and then the event of the edge happens. -/
def step (s : State) : Host.Outcome State Fault Refusal :=
  match edgeEvent s with
  | .reset => .next (applyReset (consumeSample s))
  | .idle => .next (consumeSample s)
  | .beforeReset => .refused .commandBeforeReset
  | .illegal cmd => .next (respondIllegal cmd (consumeSample s))
  | .execute i => exec i (consumeSample s)

/-- `s` with the host presenting, at the coming edge, the command whose bits are the low `nbits` bits of `w` (the bits above
them zero), to a block that has been reset (notes/assumptions/5.md). -/
def State.withFetchWord (s : State) (nbits w : Nat) : State :=
  placeCommand (commandOfBits (w % 2 ^ nbits)) s

end Sys2Proof.Machine
end

