-- ==== Sys2Proof/Machine/HostRead.lean ====
section
/-! DEFINITION. The output ports, and how the host reads a response from them (10_state R26, 70_reset_and_hazards R238). A
read is a function of the state and gives no new state: it has no side effect. -/

namespace Sys2Proof.Machine

/-- The block's output ports (10_state R20). -/
structure Outputs where
  resLo : Word
  resHi : Word
  resStatus : BitVec 3
  deriving DecidableEq, Repr

/-- The ports show the registers at all times (10_state R26). -/
def outputPorts (s : State) : Outputs := ⟨s.resLo, s.resHi, s.status⟩

/-- A host read. Before the first reset a register holds no value and reading it is a fault of the model
(93_implementation_defined U8). -/
def readOutputs (s : State) : Except Fault Outputs :=
  if s.wasReset then .ok (outputPorts s) else .error .unresetRead

/-- What the host may take from the ports once it has looked at the flags (70_reset_and_hazards R238). -/
inductive Reading where
  | noResponse              -- only reset zeros
  | illegalCommand          -- zeros that are no result
  | negInf                  -- the word is a filler
  | words (hi lo : Word)    -- a result, the high word meant by `MUL` alone
  deriving DecidableEq, Repr

/-- Flags before value (70_reset_and_hazards R238, 60_exceptions R201). -/
def interpretOutputs (o : Outputs) : Reading :=
  if !rvalidBit o.resStatus then .noResponse
  else if illBit o.resStatus then .illegalCommand
  else if ninfBit o.resStatus then .negInf
  else .words o.resHi o.resLo

end Sys2Proof.Machine
end

