-- ==== Sys2Proof/Machine/HostNumbers.lean ====
section
/-! DEFINITION. The host-side conversions `TOU32`, `HIPART`, `HEX` (41_bytes R103 to R105). They are no commands and touch no
state. -/

namespace Sys2Proof.Machine

/-- A number of the host: a finite rational, or something non-finite, which the conversions refuse (41_bytes section 2,
93_implementation_defined U5, U10). -/
inductive HostNumber where
  | finite (q : Rat)
  | nonFinite
  deriving DecidableEq, Repr

/-- `trunc`: the fractional part discarded, toward zero (00_scope R6). -/
def truncate (q : Rat) : Int := q.num.tdiv q.den

/-- `TOU32` of a finite number (41_bytes R103). -/
def tou32Finite (q : Rat) : Word := BitVec.ofInt 32 (truncate q)

/-- `HIPART` of a finite number (41_bytes R104). -/
def hipartFinite (q : Rat) : Word := tou32Finite ((q / 4294967296).floor : Int)

/-- `TOU32`, refused on a non-finite number (41_bytes R103, 92_eei_decisions D29). -/
def tou32 : HostNumber → Option Word
  | .finite q => some (tou32Finite q)
  | .nonFinite => none

/-- `HIPART`, refused on a non-finite number (41_bytes R104, 92_eei_decisions D29). -/
def hipart : HostNumber → Option Word
  | .finite q => some (hipartFinite q)
  | .nonFinite => none

/-- The sixteen lower-case digits in order (41_bytes R105, 93_implementation_defined G3). -/
def hexDigit (n : Nat) : Char :=
  ['0', '1', '2', '3', '4', '5', '6', '7', '8', '9', 'a', 'b', 'c', 'd', 'e', 'f'].getD n '0'

/-- All eight hexadecimal digits of a word, the most significant first. -/
def allHexDigits (v : Word) : List Char :=
  [7, 6, 5, 4, 3, 2, 1, 0].map fun i => hexDigit (v.toNat / 16 ^ i % 16)

/-- The digits of a word without leading zeros; the one digit of 0 is `0` (41_bytes R105, 93_implementation_defined G1). -/
def naturalHex (v : Word) : List Char :=
  match (allHexDigits v).dropWhile (· == '0') with
  | [] => ['0']
  | d :: ds => d :: ds

/-- `HEX`: padded on the left with `0` to at least `minLength` characters, never truncated (41_bytes R105). A text is a list
of characters. -/
def hexText (v : Word) (minLength : Nat := 8) : List Char :=
  List.replicate (minLength - (naturalHex v).length) '0' ++ naturalHex v

/-- A host number that is a non-negative integer. -/
def naturalOf : HostNumber → Option Nat
  | .finite q => if q.den = 1 ∧ 0 ≤ q.num then some q.num.toNat else none
  | .nonFinite => none

/-- `HEX` asked for on host numbers: refused where `value` is no word or `minLength` no non-negative integer
(93_implementation_defined U9, 92_eei_decisions D28). -/
def hexRequest (value minLength : HostNumber) : Option (List Char) :=
  match naturalOf value, naturalOf minLength with
  | some v, some m => if v < 2 ^ 32 then some (hexText (BitVec.ofNat 32 v) m) else none
  | _, _ => none

end Sys2Proof.Machine
end

