-- ==== Sys2Proof/Machine/Listing.lean ====
section
/-! DEFINITION. The assembler and a run of a listing (30_encoding R74 to R78, 70_reset_and_hazards R242): a host program,
which acts on the block only through `step`. -/

namespace Sys2Proof.Machine

/-- The mnemonics of a listing: the fourteen commands and the pseudo-instruction `COPY` (30_encoding R74, R78). -/
inductive Mnemonic where
  | pack | getb | or | and | xor | not | shl | shr | rotl | rotr | ch | maj | log2 | mul | copy
  deriving DecidableEq, Repr

/-- An operand: a number, or the `RES_LO` or `RES_HI` left by the `k`-th command, counted from 1 (30_encoding R75, R76). -/
inductive ListingOperand where
  | number (x : HostNumber)
  | resLo (k : Nat)
  | resHi (k : Nat)
  deriving DecidableEq, Repr

/-- A line of a listing. A fold may carry its operand count as a suffix (30_encoding R74). -/
structure ListingLine where
  mnemonic : Mnemonic
  suffix   : Option Nat
  operands : List ListingOperand
  deriving DecidableEq, Repr

/-- Whether a mnemonic is one of the three folds (30_encoding R63). -/
def Mnemonic.isFold : Mnemonic → Bool
  | .or => true
  | .and => true
  | .xor => true
  | _ => false

/-- The commands of a long fold after the first: each feeds the previous result in on `A` and takes three more operands while
three remain, then the rest. `k` is the number of the command before (30_encoding R77). -/
def foldChain (m : Mnemonic) : Nat → List ListingOperand → List ListingLine
  | _, [] => []
  | k, [x] => [⟨m, none, [.resLo k, x]⟩]
  | k, [x, y] => [⟨m, none, [.resLo k, x, y]⟩]
  | k, x :: y :: z :: rest => ⟨m, none, [.resLo k, x, y, z]⟩ :: foldChain m (k + 1) rest

/-- A fold over any number of operands: one command for one to four, a chain for more, refused for none (30_encoding R77,
93_implementation_defined U4). `done` is the number of commands before this line. -/
def expandFold (m : Mnemonic) (done : Nat) : List ListingOperand → Option (List ListingLine)
  | [] => none
  | x :: y :: z :: w :: rest => some (⟨m, none, [x, y, z, w]⟩ :: foldChain m (done + 1) rest)
  | few => some [⟨m, none, few⟩]

/-- A suffix stands on a fold alone and is its operand count (30_encoding R74). R74 speaks of it beside a single command, with 1
to 4 operands, and leaves open whether a long fold (R77) may carry one; that `OR.6` with six operands is accepted here and
expanded is a DESIGN CHOICE (notes/assumptions/13.md). -/
def suffixOk (l : ListingLine) : Bool :=
  match l.suffix with
  | none => true
  | some n => l.mnemonic.isFold && n == l.operands.length

/-- The commands of one line, `done` commands standing before it (30_encoding R77, R78). -/
def expandLine (done : Nat) (l : ListingLine) : Option (List ListingLine) :=
  if !suffixOk l then none
  else if l.mnemonic.isFold then expandFold l.mnemonic done l.operands
  else
    match l.mnemonic, l.operands with
    | .copy, [v] => some [⟨.or, none, [v]⟩]
    | .copy, _ => none
    | _, _ => some [⟨l.mnemonic, none, l.operands⟩]

/-- The commands of a listing (30_encoding R77, R78). -/
def expandListing : Nat → List ListingLine → Option (List ListingLine)
  | _, [] => some []
  | done, l :: ls => do
    let cs ← expandLine done l
    let rest ← expandListing (done + cs.length) ls
    return cs ++ rest

/-- The word an operand drives on its port. `history` holds (`RES_LO`, `RES_HI`) after each command so far, oldest first, so a
reference to the same or a later command finds nothing and is refused (30_encoding R75, R76). -/
def operandWord (history : List (Word × Word)) : ListingOperand → Option Word
  | .number x => tou32 x
  | .resLo k => if k = 0 then none else (history[k - 1]?).map Prod.fst
  | .resHi k => if k = 0 then none else (history[k - 1]?).map Prod.snd

/-- The command a mnemonic makes of its operand words, in port order; refused where the count is wrong (30_encoding R74). -/
def instrOf : Mnemonic → List Word → Option Instr
  | .pack, [a, b, c, d] => some (.pack a b c d)
  | .getb, [a, b] => some (.getb a b)
  | .or, vs => if foldCountOk vs then some (.or vs) else none
  | .and, vs => if foldCountOk vs then some (.and vs) else none
  | .xor, vs => if foldCountOk vs then some (.xor vs) else none
  | .not, [a] => some (.not a)
  | .shl, [a, b] => some (.shl a b)
  | .shr, [a, b] => some (.shr a b)
  | .rotl, [a, b] => some (.rotl a b)
  | .rotr, [a, b] => some (.rotr a b)
  | .ch, [a, b, c] => some (.ch a b c)
  | .maj, [a, b, c] => some (.maj a b c)
  | .log2, [a] => some (.log2 a)
  | .mul, [a, b] => some (.mul a b)
  | .copy, [a] => some (.or [a])
  | _, _ => none

/-- The words of a list of operands, all of them or none. -/
def operandWords (history : List (Word × Word)) : List ListingOperand → Option (List Word)
  | [] => some []
  | x :: xs => do
    let w ← operandWord history x
    let ws ← operandWords history xs
    return w :: ws

/-- One edge at which the host drives the given ports; nothing where the step does not give a next state. -/
def edgeWith (p : PortSample) (s : State) : Option State :=
  match step (drive p s) with
  | .next t => some t
  | .fault _ => none
  | .refused _ => none

/-- The commands of an expanded listing, one edge each; after each the host reads both result registers
(70_reset_and_hazards R236, R242). -/
def runCommands (s : State) (history : List (Word × Word)) :
    List ListingLine → Option (State × List (Word × Word))
  | [] => some (s, history)
  | l :: ls => do
    let ws ← operandWords history l.operands
    let i ← instrOf l.mnemonic ws
    let t ← edgeWith (commandSample (encode i)) s
    runCommands t (history ++ [(t.resLo, t.resHi)]) ls

/-- A run: one reset step, then the commands of the listing in order (70_reset_and_hazards R242). -/
def runListing (s : State) (ls : List ListingLine) : Option (State × List (Word × Word)) := do
  let cs ← expandListing 0 ls
  let t ← edgeWith resetSample s
  runCommands t [] cs

end Sys2Proof.Machine
end

