-- ==== Sys2Proof/Machine/ListingText.lean ====
section
/-! DEFINITION. Reading the text of a listing (30_encoding R74 to R76). A text is a list of characters; what the spec does not
say about the text is in notes/assumptions/13.md. -/

namespace Sys2Proof.Machine

/-- The line without its comment (30_encoding R74). -/
def dropComment (line : List Char) : List Char := line.takeWhile (· != ';')

/-- The text without the spaces at its two ends. -/
def trimSpaces (t : List Char) : List Char :=
  ((t.dropWhile (· == ' ')).reverse.dropWhile (· == ' ')).reverse

/-- The pieces of a text between the given characters. -/
def splitAtChar (c : Char) : List Char → List (List Char)
  | [] => [[]]
  | x :: xs =>
    if x == c then [] :: splitAtChar c xs
    else
      match splitAtChar c xs with
      | [] => [[x]]
      | p :: ps => (x :: p) :: ps

/-- The value of a digit, in either case (30_encoding R75). -/
def digitValue (base : Nat) (c : Char) : Option Nat :=
  let v :=
    if '0' ≤ c ∧ c ≤ '9' then some (c.toNat - 48)
    else if 'a' ≤ c ∧ c ≤ 'f' then some (c.toNat - 87)
    else if 'A' ≤ c ∧ c ≤ 'F' then some (c.toNat - 55)
    else none
  v.bind fun n => if n < base then some n else none

/-- The value of a run of digits after a value already read. -/
def digitsFrom (base : Nat) (acc : Nat) : List Char → Option Nat
  | [] => some acc
  | c :: cs => do
    let d ← digitValue base c
    digitsFrom base (acc * base + d) cs

/-- A number written with at least one digit. -/
def readNat (base : Nat) (t : List Char) : Option Nat :=
  if t.isEmpty then none else digitsFrom base 0 t

/-- A literal without its sign: `0x` and hexadecimal digits, or decimal digits with an optional fractional part
(30_encoding R75). R75 leaves open whether a hexadecimal literal may have a fractional part too; that it is refused here is a
DESIGN CHOICE (notes/assumptions/13.md). -/
def readUnsigned : List Char → Option Rat
  | '0' :: 'x' :: ds => (readNat 16 ds).map fun n => (n : Rat)
  | t =>
    match splitAtChar '.' t with
    | [whole] => (readNat 10 whole).map fun n => (n : Rat)
    | [whole, frac] => do
      let _ ← readNat 10 frac
      let n ← readNat 10 whole
      let all ← digitsFrom 10 n frac
      return mkRat all (10 ^ frac.length)
    | _ => none

/-- A literal with an optional leading `-` (30_encoding R75). That it may stand on a hexadecimal literal too is a DESIGN CHOICE
(notes/assumptions/13.md). -/
def readNumber : List Char → Option Rat
  | '-' :: t => (readUnsigned t).map fun q => -q
  | t => readUnsigned t

/-- An operand: a literal, `@k.lo` or `@k.hi` (30_encoding R75, R76). -/
def readOperand : List Char → Option ListingOperand
  | '@' :: t =>
    match splitAtChar '.' t with
    | [k, ['l', 'o']] => (readNat 10 k).map .resLo
    | [k, ['h', 'i']] => (readNat 10 k).map .resHi
    | _ => none
  | t => (readNumber t).map fun q => .number (.finite q)

/-- The mnemonics as they are written, in upper case (30_encoding R74, R78). -/
def mnemonicTable : List (List Char × Mnemonic) :=
  [(['P', 'A', 'C', 'K'], .pack), (['G', 'E', 'T', 'B'], .getb), (['O', 'R'], .or), (['A', 'N', 'D'], .and),
    (['X', 'O', 'R'], .xor), (['N', 'O', 'T'], .not), (['S', 'H', 'L'], .shl), (['S', 'H', 'R'], .shr)] ++
  [(['R', 'O', 'T', 'L'], .rotl), (['R', 'O', 'T', 'R'], .rotr), (['C', 'H'], .ch), (['M', 'A', 'J'], .maj),
    (['L', 'O', 'G', '2'], .log2), (['M', 'U', 'L'], .mul), (['C', 'O', 'P', 'Y'], .copy)]

/-- A mnemonic with its optional count suffix, `OR` or `OR.3` (30_encoding R74). -/
def readMnemonic (t : List Char) : Option (Mnemonic × Option Nat) :=
  match splitAtChar '.' t with
  | [m] => (mnemonicTable.lookup m).map fun x => (x, none)
  | [m, n] => do
    let x ← mnemonicTable.lookup m
    let k ← readNat 10 n
    return (x, some k)
  | _ => none

/-- All operands of a line, or none. -/
def readOperands : List (List Char) → Option (List ListingOperand)
  | [] => some []
  | t :: ts => do
    let x ← readOperand (trimSpaces t)
    let xs ← readOperands ts
    return x :: xs

/-- One command in text: the mnemonic, a space, and the operands with commas between them (30_encoding R74). -/
def readLine (t : List Char) : Option ListingLine :=
  let body := trimSpaces (dropComment t)
  match readMnemonic (body.takeWhile (· != ' ')), readOperands (splitAtChar ',' (body.dropWhile (· != ' '))) with
  | some (m, suffix), some ops => some ⟨m, suffix, ops⟩
  | _, _ => none

/-- A listing in text, one command a line; a line with nothing but a comment holds no command. -/
def readListing : List (List Char) → Option (List ListingLine)
  | [] => some []
  | t :: ts =>
    if (trimSpaces (dropComment t)).isEmpty then readListing ts
    else do
      let l ← readLine t
      let rest ← readListing ts
      return l :: rest

end Sys2Proof.Machine
end

