-- ==== Sys2Proof/Safety.lean ====
section
/-! DEFINITION. The terms claims are made in: the invariants of 10_state R32, the bits of a command that count, runs. -/

namespace Sys2Proof.Machine

/-- 10_state R32 (a): without a response the registers hold the reset values. -/
abbrev IdleRegistersZero (o : Outputs) : Prop :=
  rvalidBit o.resStatus = false →
    o.resLo = 0 ∧ o.resHi = 0 ∧ ninfBit o.resStatus = false ∧ illBit o.resStatus = false

/-- 10_state R32 (b): what stands beside `ILL = 1`. -/
abbrev IllegalRegistersZero (o : Outputs) : Prop :=
  illBit o.resStatus = true →
    o.resLo = 0 ∧ o.resHi = 0 ∧ ninfBit o.resStatus = false ∧ rvalidBit o.resStatus = true

/-- 10_state R32 (c): what stands beside `NINF = 1`. -/
abbrev NegInfRegistersFiller (o : Outputs) : Prop :=
  ninfBit o.resStatus = true →
    o.resLo = 0xFFFFFFFF ∧ o.resHi = 0 ∧ illBit o.resStatus = false ∧ rvalidBit o.resStatus = true

/-- 10_state R32 (d): the two flags exclude each other. -/
abbrev FlagsExclusive (o : Outputs) : Prop :=
  ¬ (ninfBit o.resStatus = true ∧ illBit o.resStatus = true)

/-- The invariant of 10_state R32, of every state after the first reset; before it the registers are unspecified
(70_reset_and_hazards R232). -/
abbrev State.Inv (s : State) : Prop :=
  s.wasReset = true →
    IdleRegistersZero (outputPorts s) ∧ IllegalRegistersZero (outputPorts s) ∧
      NegInfRegistersFiller (outputPorts s) ∧ FlagsExclusive (outputPorts s)

/-- The coming edge accepts a command (10_state R21) of a block that has been reset. -/
abbrev Accepts (s : State) (c : Command) : Prop :=
  s.wasReset = true ∧ (portsNow s).rst = false ∧ (portsNow s).cmdValid = true ∧ (portsNow s).command = c

/-- The bits of a port that a command reads (30_encoding R66): for each of `A`, `B`, `C`, `D` a mask. Written out from the
table of R66 alone, so that it can be held against the decoder and the meanings. -/
def readMasks (cmd : CmdWord) : Word × Word × Word × Word :=
  match cmd with
  | 0x00#8 => (0xFF, 0xFF, 0xFF, 0xFF)
  | 0x01#8 => (0xFFFFFFFF, 0x3, 0, 0)
  | 0x02#8 | 0x03#8 | 0x04#8 => (0xFFFFFFFF, 0, 0, 0)
  | 0x12#8 | 0x13#8 | 0x14#8 => (0xFFFFFFFF, 0xFFFFFFFF, 0, 0)
  | 0x22#8 | 0x23#8 | 0x24#8 => (0xFFFFFFFF, 0xFFFFFFFF, 0xFFFFFFFF, 0)
  | 0x32#8 | 0x33#8 | 0x34#8 => (0xFFFFFFFF, 0xFFFFFFFF, 0xFFFFFFFF, 0xFFFFFFFF)
  | 0x05#8 | 0x0C#8 => (0xFFFFFFFF, 0, 0, 0)
  | 0x06#8 | 0x07#8 | 0x08#8 | 0x09#8 => (0xFFFFFFFF, 0x1F, 0, 0)
  | 0x0A#8 | 0x0B#8 => (0xFFFFFFFF, 0xFFFFFFFF, 0xFFFFFFFF, 0)
  | 0x0D#8 => (0xFFFFFFFF, 0xFFFFFFFF, 0, 0)
  | _ => (0, 0, 0, 0)

/-- Two commands that agree on the command word and on every bit it reads (00_scope R9, 30_encoding R66). -/
abbrev SameReadBits (c d : Command) : Prop :=
  c.cmd = d.cmd ∧
    c.opA &&& (readMasks c.cmd).1 = d.opA &&& (readMasks c.cmd).1 ∧
    c.opB &&& (readMasks c.cmd).2.1 = d.opB &&& (readMasks c.cmd).2.1 ∧
    c.opC &&& (readMasks c.cmd).2.2.1 = d.opC &&& (readMasks c.cmd).2.2.1 ∧
    c.opD &&& (readMasks c.cmd).2.2.2 = d.opD &&& (readMasks c.cmd).2.2.2

/-- `legal(CMD)` on the number that `CMD` is, straight from the words of 30_encoding R70: `CMD[7:6]`, `CMD[3:0]` and `CMD[5:4]`
as quotients and remainders. -/
abbrev LegalNumber (cmd : CmdWord) : Prop :=
  cmd.toNat / 64 = 0 ∧
    ((cmd.toNat % 16 = 2 ∨ cmd.toNat % 16 = 3 ∨ cmd.toNat % 16 = 4) ∨ (cmd.toNat % 16 ≤ 13 ∧ cmd.toNat / 16 % 4 = 0))

/-- `OP` of each command (30_encoding R62). -/
def opcodeOf : Instr → Nat
  | .pack _ _ _ _ => 0x0
  | .getb _ _ => 0x1
  | .or _ => 0x2
  | .and _ => 0x3
  | .xor _ => 0x4
  | .not _ => 0x5
  | .shl _ _ => 0x6
  | .shr _ _ => 0x7
  | .rotl _ _ => 0x8
  | .rotr _ _ => 0x9
  | .ch _ _ _ => 0xA
  | .maj _ _ _ => 0xB
  | .log2 _ => 0xC
  | .mul _ _ => 0xD

/-- The word a command leaves in `RES_LO`, where it completes. -/
def resLoAfter (i : Instr) (s : State) : Option Word :=
  match exec i s with
  | .next t => some t.resLo
  | .fault _ => none
  | .refused _ => none

/-- A safe run so far: no illegal command was executed (60_exceptions R202, 93_implementation_defined U6). -/
abbrev State.NoIllegalYet (s : State) : Prop := s.faultRecord = []

end Sys2Proof.Machine
end

