-- ==== Sys2Proof/Certificates/Slice0/Obligations.lean ====
section
/-! DEFINITION. The statements about U32AU, from the numbered rules of the spec, for the provers. -/

open Sys2Proof Sys2Proof.Machine

/-! ### Encoding -/

/-- 30_encoding R62, R63, R64: every cell of the map of command words. The 23 legal words decode to their commands with the
ports in port order, whatever stands on the ports; every other word is illegal. -/
def Obligations.CommandWordMapIsComplete : Prop :=
  (∀ a b c d : Word,
    decode ⟨0x00, a, b, c, d⟩ = .legal (.pack a b c d) ∧
    decode ⟨0x01, a, b, c, d⟩ = .legal (.getb a b) ∧
    (decode ⟨0x02, a, b, c, d⟩ = .legal (.or [a]) ∧ decode ⟨0x12, a, b, c, d⟩ = .legal (.or [a, b]) ∧
      decode ⟨0x22, a, b, c, d⟩ = .legal (.or [a, b, c]) ∧ decode ⟨0x32, a, b, c, d⟩ = .legal (.or [a, b, c, d])) ∧
    (decode ⟨0x03, a, b, c, d⟩ = .legal (.and [a]) ∧ decode ⟨0x13, a, b, c, d⟩ = .legal (.and [a, b]) ∧
      decode ⟨0x23, a, b, c, d⟩ = .legal (.and [a, b, c]) ∧ decode ⟨0x33, a, b, c, d⟩ = .legal (.and [a, b, c, d])) ∧
    (decode ⟨0x04, a, b, c, d⟩ = .legal (.xor [a]) ∧ decode ⟨0x14, a, b, c, d⟩ = .legal (.xor [a, b]) ∧
      decode ⟨0x24, a, b, c, d⟩ = .legal (.xor [a, b, c]) ∧ decode ⟨0x34, a, b, c, d⟩ = .legal (.xor [a, b, c, d])) ∧
    decode ⟨0x05, a, b, c, d⟩ = .legal (.not a) ∧
    decode ⟨0x06, a, b, c, d⟩ = .legal (.shl a b) ∧
    decode ⟨0x07, a, b, c, d⟩ = .legal (.shr a b) ∧
    decode ⟨0x08, a, b, c, d⟩ = .legal (.rotl a b) ∧
    decode ⟨0x09, a, b, c, d⟩ = .legal (.rotr a b) ∧
    decode ⟨0x0A, a, b, c, d⟩ = .legal (.ch a b c) ∧
    decode ⟨0x0B, a, b, c, d⟩ = .legal (.maj a b c) ∧
    decode ⟨0x0C, a, b, c, d⟩ = .legal (.log2 a) ∧
    decode ⟨0x0D, a, b, c, d⟩ = .legal (.mul a b)) ∧
  (∀ c : Command,
    c.cmd ∉ ([0x00, 0x01, 0x02, 0x12, 0x22, 0x32, 0x03, 0x13, 0x23, 0x33, 0x04, 0x14, 0x24, 0x34] : List CmdWord) ++
        [0x05, 0x06, 0x07, 0x08, 0x09, 0x0A, 0x0B, 0x0C, 0x0D] →
      ∃ why, decode c = .illegal why)

/-- 30_encoding R62, R67: a word of each family, written out from the table, on the operands of a vector of 95_test_vectors. -/
def Obligations.WrittenOutWordsDecode : Prop :=
  decode ⟨0b00000000, 0x12, 0x34, 0x56, 0x78⟩ = .legal (.pack 0x12 0x34 0x56 0x78) ∧
  decode ⟨0b00100100, 0xDA827999, 0x333B504F, 0x27999DA8, 0⟩ = .legal (.xor [0xDA827999, 0x333B504F, 0x27999DA8]) ∧
  decode ⟨0b00001001, 0x6A09E667, 13, 0, 0⟩ = .legal (.rotr 0x6A09E667 13) ∧
  decode ⟨0b00001010, 0x01010202, 0x00010001, 0x01000100, 0⟩ = .legal (.ch 0x01010202 0x00010001 0x01000100) ∧
  decode ⟨0b00001100, 0x7FFFFFFF, 0, 0, 0⟩ = .legal (.log2 0x7FFFFFFF) ∧
  decode ⟨0b00001101, 0xFA93896B, 0xA1A9F539, 0, 0⟩ = .legal (.mul 0xFA93896B 0xA1A9F539) ∧
  decode ⟨0b00001110, 1, 1, 1, 1⟩ = .illegal .reservedOpcode ∧
  decode ⟨0b01000010, 1, 1, 1, 1⟩ = .illegal .reservedBits ∧
  decode ⟨0b00010101, 1, 1, 1, 1⟩ = .illegal .operandCount

/-- Every well-formed instruction, with every operand at every value, comes back from its command (30_encoding R60, R62, R63,
R65, R74). -/
def Obligations.DecodeOfEncodeIsIdentity : Prop :=
  ∀ i : Instr, i.wellFormed = true → decode (encode i) = .legal i

/-- What the decoder reads is well-formed, and its command has the same command word and the same bits on every port, as far
as the command reads them (30_encoding R63, R65, R66). -/
def Obligations.EncodeOfDecodeKeepsReadBits : Prop :=
  ∀ (c : Command) (i : Instr), decode c = .legal i → i.wellFormed = true ∧ SameReadBits c (encode i)

/-- Each row of the opcode table is met by exactly the words that match it under its mask (30_encoding R67). -/
def Obligations.TableRowsMatchUnderMask : Prop :=
  ∀ c : Command,
    ((∃ i, decode c = .legal i ∧ opcodeOf i = 0x2) ↔ c.cmd &&& 0xCF = 0x02) ∧
    ((∃ i, decode c = .legal i ∧ opcodeOf i = 0x3) ↔ c.cmd &&& 0xCF = 0x03) ∧
    ((∃ i, decode c = .legal i ∧ opcodeOf i = 0x4) ↔ c.cmd &&& 0xCF = 0x04) ∧
    (∀ op : Nat, op ≠ 0x2 → op ≠ 0x3 → op ≠ 0x4 →
      ((∃ i, decode c = .legal i ∧ opcodeOf i = op) ↔ op ≤ 0xD ∧ c.cmd.toNat = op))

/-- 30_encoding R61: legality and the operation depend on `CMD` alone. -/
def Obligations.OperationDependsOnCmdAlone : Prop :=
  ∀ c d : Command, c.cmd = d.cmd →
    (∃ why, decode c = .illegal why ∧ decode d = .illegal why) ∨
    (∃ i j, decode c = .legal i ∧ decode d = .legal j ∧ opcodeOf i = opcodeOf j)

/-! ### Edges -/

/-- A step at an edge that accepts a legal command is that command's meaning, the port values of the edge used up
(10_state R21, R24). -/
def Obligations.StepRunsDecodedCommand : Prop :=
  ∀ (s : State) (c : Command) (i : Instr), Accepts s c → decode c = .legal i →
    step s = exec i { s with inputs := s.inputs.tail }

/-- 30_encoding R70: the legality predicate on the number `CMD`; a command that is not legal answers with the illegal response,
a legal one is dispatched on `CMD[3:0]`: the step is the meaning of the very instruction that the command decodes to. -/
def Obligations.LegalityDecidesDispatch : Prop :=
  ∀ (s : State) (c : Command), Accepts s c →
    (LegalNumber c.cmd →
      ∃ i, decode c = .legal i ∧ opcodeOf i = c.cmd.toNat % 16 ∧
        step s = exec i { s with inputs := s.inputs.tail }) ∧
    (¬ LegalNumber c.cmd →
      ∃ t, step s = .next t ∧ outputPorts t = ⟨0, 0, 0b101#3⟩)

/-- The whole next state of an edge with `rst = 1`, in every state and whatever the other ports hold: the reset values
(70_reset_and_hazards R230), and, by the model's choice, the reset noted in `wasReset` (notes/assumptions/3.md) and the fault
record kept (notes/assumptions/4.md). -/
def Obligations.ResetEdgeLoadsResetValues : Prop :=
  ∀ s : State, (portsNow s).rst = true →
    step s = .next { s with resLo := 0, resHi := 0, status := 0, wasReset := true, inputs := s.inputs.tail }

/-- 70_reset_and_hazards R230: one edge with `rst = 1`, or several in a row, load the reset values, in every state (before the
first reset too) and whatever the other ports hold at them. -/
def Obligations.ResetEdgesShowResetValues : Prop :=
  ∀ (s : State) (p : PortSample) (more rest : List PortSample),
    (∀ q ∈ p :: more, q.rst = true) → s.inputs = p :: (more ++ rest) →
    ∃ t : State, Host.Core.run Sys2Proof.core (1 + more.length) s = .next t ∧ outputPorts t = ⟨0, 0, 0⟩ ∧ t.inputs = rest

/-- 10_state R25: at an edge with `rst = 0` and `cmd_valid = 0` no register changes, whatever the other ports hold; and there is
no command that does nothing, for every command changes what a block without a response shows. -/
def Obligations.IdleEdgeChangesNoRegister : Prop :=
  (∀ s : State, (portsNow s).rst = false → (portsNow s).cmdValid = false →
    step s = .next { s with inputs := s.inputs.tail }) ∧
  (∀ (s : State) (c : Command), Accepts s c → rvalidBit s.status = false →
    ∃ t, step s = .next t ∧ outputPorts t ≠ outputPorts s)

/-- The whole next state of an accepted command whose word is not legal, for every operand: the response of 60_exceptions R202,
and, by the model's choice, its command word as the entry of the fault record (notes/assumptions/4.md); and whatever command
completes clears `ILL`. -/
def Obligations.IllegalCommandResponse : Prop :=
  (∀ (s : State) (c : Command), Accepts s c → ¬ LegalNumber c.cmd →
    step s = .next { s with resLo := 0, resHi := 0, status := 0b101#3, inputs := s.inputs.tail,
                            faultRecord := s.faultRecord ++ [c.cmd] }) ∧
  (∀ (i : Instr) (s t : State), exec i s = .next t → illBit t.status = false)

/-- 60_exceptions R202: an accepted command whose word is not legal gives the illegal response, for every operand and in every
state after a reset; the block accepts the next command at the next edge, and if that one is legal it clears `ILL`. -/
def Obligations.IllegalCommandThenLegal : Prop :=
  ∀ (s : State) (c : Command), Accepts s c → ¬ LegalNumber c.cmd →
    ∃ t, step s = .next t ∧ outputPorts t = ⟨0, 0, 0b101#3⟩ ∧ t.inputs = s.inputs.tail ∧
      ((portsNow t).rst = false → (portsNow t).cmdValid = true →
        ∃ u, step t = .next u ∧ rvalidBit u.status = true ∧
          (LegalNumber (portsNow t).command.cmd → illBit u.status = false))

/-- Before the first reset, and only then, a command is refused and a read of the ports is a fault of the model; after it a
read shows the registers (10_state R26); from power-up, one reset edge reaches the reset values (70_reset_and_hazards R232,
93_implementation_defined U8). The refusal and the fault are the model's choice (notes/assumptions/3.md, 14.md). -/
def Obligations.NothingKnownBeforeReset : Prop :=
  (∀ s : State, s.wasReset = false → readOutputs s = .error .unresetRead) ∧
  (∀ s : State, s.wasReset = true → readOutputs s = .ok (outputPorts s)) ∧
  (∀ s : State, s.wasReset = false → (portsNow s).rst = false → (portsNow s).cmdValid = true →
    step s = .refused .commandBeforeReset) ∧
  (∀ (s : State) (r : Refusal), step s = .refused r → s.wasReset = false ∧ r = .commandBeforeReset) ∧
  (∀ (p : PortSample) (ps : List PortSample), p.rst = true →
    step (powerUp (p :: ps)) = .next { State.reset with inputs := ps })

/-- 10_state R31: after a reset every register has a defined value, in the state right after reset and after any reset edge. -/
def Obligations.RegistersAfterReset : Prop :=
  outputPorts State.reset = ⟨0, 0, 0⟩ ∧ readOutputs State.reset = .ok ⟨0, 0, 0⟩ ∧
  ∀ s : State, (portsNow s).rst = true →
    ∃ t, step s = .next t ∧ t.resLo = 0 ∧ t.resHi = 0 ∧ rvalidBit t.status = false ∧ ninfBit t.status = false ∧
      illBit t.status = false ∧ readOutputs t = .ok ⟨0, 0, 0⟩

/-- The invariant of 10_state R32 holds in the state right after reset. -/
def Obligations.ResetMeetsInvariant : Prop := State.Inv State.reset ∧ State.reset.wasReset = true

/-- Every step keeps the invariant of 10_state R32, from every state that meets it. -/
def Obligations.StepKeepsInvariant : Prop :=
  ∀ s t : State, State.Inv s → step s = .next t → State.Inv t

/-- 60_exceptions R200: a legal command completes for all operand values, and nothing in the block faults. -/
def Obligations.NoCommandRaisesException : Prop :=
  (∀ (c : Command) (i : Instr) (s : State), decode c = .legal i → ∃ t, exec i s = .next t) ∧
  (∀ (i : Instr) (s : State) (r : Fault), exec i s ≠ .fault r) ∧
  (∀ (s : State) (r : Fault), step s ≠ .fault r)

/-- The block never halts: once reset, it takes any number of steps, whatever the host drives (70_reset_and_hazards R242,
R231). -/
def Obligations.BlockNeverHalts : Prop :=
  ∀ (k : Nat) (s : State), s.wasReset = true → ∃ t : State, Host.Core.run Sys2Proof.core k s = .next t ∧ t.wasReset = true

/-- 10_state R29: `NINF`, `ILL` and `RVALID` after every command, legal or not, and after reset. -/
def Obligations.FlagsAfterEachCommand : Prop :=
  (∀ (s : State) (c : Command), Accepts s c →
    ∃ t, step s = .next t ∧ rvalidBit t.status = true ∧
      (illBit t.status = true ↔ ¬ LegalNumber c.cmd) ∧
      (ninfBit t.status = true ↔ c.cmd = 0x0C ∧ c.opA = 0)) ∧
  (∀ s : State, (portsNow s).rst = true →
    ∃ t, step s = .next t ∧ rvalidBit t.status = false ∧ illBit t.status = false ∧ ninfBit t.status = false)

/-- `STATUS` after an accepted command is exactly one of the three outcome codes, each with the words the table records
(60_exceptions R201). -/
def Obligations.ThreeOutcomeCodes : Prop :=
  ∀ (s : State) (c : Command), Accepts s c → ∃ t, step s = .next t ∧
    ((t.status = 0b001#3 ∧ LegalNumber c.cmd ∧ ¬ (c.cmd = 0x0C ∧ c.opA = 0)) ∨
      (t.status = 0b011#3 ∧ c.cmd = 0x0C ∧ c.opA = 0 ∧ t.resLo = 0xFFFFFFFF ∧ t.resHi = 0) ∨
      (t.status = 0b101#3 ∧ ¬ LegalNumber c.cmd ∧ t.resLo = 0 ∧ t.resHi = 0))

/-- 00_scope R3: two blocks in any two states, given the same command, answer alike. -/
def Obligations.ResponseIsFunctionOfCommand : Prop :=
  ∀ (s s' : State) (c : Command), Accepts s c → Accepts s' c →
    ∃ t t' : State, step s = .next t ∧ step s' = .next t' ∧ outputPorts t = outputPorts t'

/-- 00_scope R9: two commands that agree on the command word and on every bit it reads (the masks of 30_encoding R66) have the
same step, in every state. -/
def Obligations.UnreadBitsHaveNoEffect : Prop :=
  ∀ (s : State) (c d : Command), SameReadBits c d →
    step (drive (commandSample c) s) = step (drive (commandSample d) s)

/-- 20_memory R48: after any edges at all, one edge that accepts a command, and any idle edges, the ports show exactly the
response of that command, which is the response a block just reset gives to it. -/
def Obligations.PortsShowLastResponse : Prop :=
  ∀ (s : State) (before idles rest : List PortSample) (c : Command),
    s.wasReset = true →
    (∀ p ∈ idles, p.rst = false ∧ p.cmdValid = false) →
    s.inputs = before ++ commandSample c :: (idles ++ rest) →
    ∃ t u : State, Host.Core.run Sys2Proof.core (before.length + 1 + idles.length) s = .next t ∧
      step (drive (commandSample c) State.reset) = .next u ∧ outputPorts t = outputPorts u ∧ t.inputs = rest

/-- The fault record only grows, and by exactly the illegal commands: a step that accepts one appends its command word, and any
other step leaves the record as it was (93_implementation_defined U6; the form of the record is the model's choice,
notes/assumptions/4.md). -/
def Obligations.FaultRecordIsKept : Prop :=
  ∀ s t : State, step s = .next t →
    (∀ c, Accepts s c → ¬ LegalNumber c.cmd → t.faultRecord = s.faultRecord ++ [c.cmd]) ∧
    ((∀ c, Accepts s c → LegalNumber c.cmd) → t.faultRecord = s.faultRecord)

/-- The frame of all fourteen commands: they change the result registers and `STATUS` and nothing else (10_state R24, R30). -/
def Obligations.CommandsChangeOnlyResultRegisters : Prop :=
  ∀ (i : Instr) (s t : State), exec i s = .next t →
    t.inputs = s.inputs ∧ t.faultRecord = s.faultRecord ∧ t.wasReset = s.wasReset ∧
      rvalidBit t.status = true ∧ illBit t.status = false ∧
      ((∀ a b, i ≠ .mul a b) → t.resHi = 0) ∧ (i ≠ .log2 0 → ninfBit t.status = false)

/-! ### Commands -/

/-- 41_bytes R101. -/
def Obligations.PackComposesFourBytes : Prop :=
  ∀ (a b c d : Word) (s : State),
    decode ⟨0x00, a, b, c, d⟩ = .legal (.pack a b c d) ∧
    ∃ lo : Word, exec (.pack a b c d) s = .next { s with resLo := lo, resHi := 0, status := 0b001#3 } ∧
      lo.toNat = (a.toNat % 256) * 2 ^ 24 + (b.toNat % 256) * 2 ^ 16 + (c.toNat % 256) * 2 ^ 8 + d.toNat % 256

/-- 41_bytes R102. -/
def Obligations.GetbExtractsByte : Prop :=
  ∀ (a b c d : Word) (s : State),
    decode ⟨0x01, a, b, c, d⟩ = .legal (.getb a b) ∧
    ∃ lo : Word, exec (.getb a b) s = .next { s with resLo := lo, resHi := 0, status := 0b001#3 } ∧
      lo.toNat = a.toNat / 2 ^ (8 * (3 - b.toNat % 4)) % 256

/-- 41_bytes R106: a byte packed into a word comes out again, for every operand word. -/
def Obligations.GetbReturnsPackedByte : Prop :=
  ∀ (b0 b1 b2 b3 i : Word) (s : State),
    ∃ t u : State, exec (.pack b0 b1 b2 b3) s = .next t ∧ exec (.getb t.resLo i) t = .next u ∧
      u.resLo.toNat = (([b0, b1, b2, b3] : List Word).getD (i.toNat % 4) 0).toNat % 256

/-- 42_logic R121: the four words of `OR`, and for one to four operands, bit by bit: at least one. -/
def Obligations.OrSetsBitOfAnyOperand : Prop :=
  (∀ a b c d : Word,
    decode ⟨0x02, a, b, c, d⟩ = .legal (.or [a]) ∧ decode ⟨0x12, a, b, c, d⟩ = .legal (.or [a, b]) ∧
    decode ⟨0x22, a, b, c, d⟩ = .legal (.or [a, b, c]) ∧ decode ⟨0x32, a, b, c, d⟩ = .legal (.or [a, b, c, d])) ∧
  ∀ (vs : List Word) (s : State), 1 ≤ vs.length → vs.length ≤ 4 →
    ∃ lo : Word, exec (.or vs) s = .next { s with resLo := lo, resHi := 0, status := 0b001#3 } ∧
      ∀ i < 32, (lo.getLsbD i = true ↔ ∃ v ∈ vs, v.getLsbD i = true)

/-- 42_logic R122: the four words of `AND`, and for one to four operands, bit by bit: every one. -/
def Obligations.AndSetsBitOfAllOperands : Prop :=
  (∀ a b c d : Word,
    decode ⟨0x03, a, b, c, d⟩ = .legal (.and [a]) ∧ decode ⟨0x13, a, b, c, d⟩ = .legal (.and [a, b]) ∧
    decode ⟨0x23, a, b, c, d⟩ = .legal (.and [a, b, c]) ∧ decode ⟨0x33, a, b, c, d⟩ = .legal (.and [a, b, c, d])) ∧
  ∀ (vs : List Word) (s : State), 1 ≤ vs.length → vs.length ≤ 4 →
    ∃ lo : Word, exec (.and vs) s = .next { s with resLo := lo, resHi := 0, status := 0b001#3 } ∧
      ∀ i < 32, (lo.getLsbD i = true ↔ ∀ v ∈ vs, v.getLsbD i = true)

/-- 42_logic R123: the four words of `XOR`, and for one to four operands, bit by bit: an odd number. -/
def Obligations.XorSetsBitOfOddOperands : Prop :=
  (∀ a b c d : Word,
    decode ⟨0x04, a, b, c, d⟩ = .legal (.xor [a]) ∧ decode ⟨0x14, a, b, c, d⟩ = .legal (.xor [a, b]) ∧
    decode ⟨0x24, a, b, c, d⟩ = .legal (.xor [a, b, c]) ∧ decode ⟨0x34, a, b, c, d⟩ = .legal (.xor [a, b, c, d])) ∧
  ∀ (vs : List Word) (s : State), 1 ≤ vs.length → vs.length ≤ 4 →
    ∃ lo : Word, exec (.xor vs) s = .next { s with resLo := lo, resHi := 0, status := 0b001#3 } ∧
      ∀ i < 32, (lo.getLsbD i = true ↔ (vs.filter fun v => v.getLsbD i).length % 2 = 1)

/-- A fold term with no operand, or with more than four, is refused: no command word has it (93_implementation_defined U4,
30_encoding R63; notes/assumptions/9.md). -/
def Obligations.FoldWithoutCommandRefused : Prop :=
  ∀ (vs : List Word) (s : State), vs = [] ∨ 4 < vs.length →
    exec (.or vs) s = .refused .foldOperandCount ∧ exec (.and vs) s = .refused .foldOperandCount ∧
      exec (.xor vs) s = .refused .foldOperandCount ∧
      ∀ c : Command, decode c ≠ .legal (.or vs) ∧ decode c ≠ .legal (.and vs) ∧ decode c ≠ .legal (.xor vs)

/-- 42_logic R124. -/
def Obligations.NotComplementsWord : Prop :=
  ∀ (a b c d : Word) (s : State),
    decode ⟨0x05, a, b, c, d⟩ = .legal (.not a) ∧
    ∃ lo : Word, exec (.not a) s = .next { s with resLo := lo, resHi := 0, status := 0b001#3 } ∧
      lo.toNat = 2 ^ 32 - 1 - a.toNat ∧ (∀ i < 32, lo.getLsbD i = !a.getLsbD i)

/-- 43_shift_rotate R141, with the amount of R140. -/
def Obligations.ShlShiftsLeft : Prop :=
  ∀ (a b c d : Word) (s : State),
    decode ⟨0x06, a, b, c, d⟩ = .legal (.shl a b) ∧
    ∃ lo : Word, exec (.shl a b) s = .next { s with resLo := lo, resHi := 0, status := 0b001#3 } ∧
      lo.toNat = (a.toNat * 2 ^ (b.toNat % 32)) % 2 ^ 32 ∧
      ∀ i < 32, lo.getLsbD i = (decide (b.toNat % 32 ≤ i) && a.getLsbD (i - b.toNat % 32))

/-- 43_shift_rotate R142, with the amount of R140. -/
def Obligations.ShrShiftsRight : Prop :=
  ∀ (a b c d : Word) (s : State),
    decode ⟨0x07, a, b, c, d⟩ = .legal (.shr a b) ∧
    ∃ lo : Word, exec (.shr a b) s = .next { s with resLo := lo, resHi := 0, status := 0b001#3 } ∧
      lo.toNat = a.toNat / 2 ^ (b.toNat % 32) ∧
      ∀ i < 32, lo.getLsbD i = (decide (i + b.toNat % 32 ≤ 31) && a.getLsbD (i + b.toNat % 32))

/-- 43_shift_rotate R143, with the amount of R140: bit `i` of the result is bit `(i - n) mod 32` of the operand. -/
def Obligations.RotlRotatesLeft : Prop :=
  ∀ (a b c d : Word) (s : State),
    decode ⟨0x08, a, b, c, d⟩ = .legal (.rotl a b) ∧
    ∃ lo : Word, exec (.rotl a b) s = .next { s with resLo := lo, resHi := 0, status := 0b001#3 } ∧
      (b.toNat % 32 = 0 → lo = a) ∧
      (b.toNat % 32 ≠ 0 → lo = (a <<< (b.toNat % 32)) ||| (a >>> (32 - b.toNat % 32))) ∧
      ∀ i < 32, lo.getLsbD i = a.getLsbD ((i + (32 - b.toNat % 32)) % 32)

/-- 43_shift_rotate R144, with the amount of R140: bit `i` of the result is bit `(i + n) mod 32` of the operand. -/
def Obligations.RotrRotatesRight : Prop :=
  ∀ (a b c d : Word) (s : State),
    decode ⟨0x09, a, b, c, d⟩ = .legal (.rotr a b) ∧
    ∃ lo : Word, exec (.rotr a b) s = .next { s with resLo := lo, resHi := 0, status := 0b001#3 } ∧
      (b.toNat % 32 = 0 → lo = a) ∧
      (b.toNat % 32 ≠ 0 → lo = (a >>> (b.toNat % 32)) ||| (a <<< (32 - b.toNat % 32))) ∧
      ∀ i < 32, lo.getLsbD i = a.getLsbD ((i + b.toNat % 32) % 32)

/-- 43_shift_rotate R145: the identities of rotation, for every word and every amount from 0 to 31. -/
def Obligations.RotationIdentities : Prop :=
  ∀ (v : Word) (n : Nat) (s : State), n ≤ 31 →
    resLoAfter (.rotr v (BitVec.ofNat 32 n)) s = resLoAfter (.rotl v (BitVec.ofNat 32 ((32 - n) % 32))) s ∧
    (∃ w, resLoAfter (.rotl v (BitVec.ofNat 32 n)) s = some w ∧ resLoAfter (.rotr w (BitVec.ofNat 32 n)) s = some v) ∧
    (1 ≤ n → ∃ x y, resLoAfter (.shl v (BitVec.ofNat 32 n)) s = some x ∧
      resLoAfter (.shr v (BitVec.ofNat 32 (32 - n))) s = some y ∧
      resLoAfter (.rotl v (BitVec.ofNat 32 n)) s = some (x ||| y))

/-- 44_gates R161: bit by bit, the second operand where the first has a 1, else the third. -/
def Obligations.ChSelectsBits : Prop :=
  ∀ (a b c d : Word) (s : State),
    decode ⟨0x0A, a, b, c, d⟩ = .legal (.ch a b c) ∧
    ∃ lo : Word, exec (.ch a b c) s = .next { s with resLo := lo, resHi := 0, status := 0b001#3 } ∧
      lo = (a &&& b) ||| (~~~a &&& c) ∧
      ∀ i < 32, lo.getLsbD i = if a.getLsbD i then b.getLsbD i else c.getLsbD i

/-- 44_gates R162: bit by bit, 1 exactly when at least two of the three operand bits are. -/
def Obligations.MajTakesMajority : Prop :=
  ∀ (a b c d : Word) (s : State),
    decode ⟨0x0B, a, b, c, d⟩ = .legal (.maj a b c) ∧
    ∃ lo : Word, exec (.maj a b c) s = .next { s with resLo := lo, resHi := 0, status := 0b001#3 } ∧
      lo = (a &&& b) ^^^ (a &&& c) ^^^ (b &&& c) ∧
      ∀ i < 32, (lo.getLsbD i = true ↔
        2 ≤ (a.getLsbD i).toNat + (b.getLsbD i).toNat + (c.getLsbD i).toNat)

/-- 45_log2 R170, R171: the exact integer logarithm of a word that is not 0, and negative infinity, carried by `NINF`, of 0; no
other command sets `NINF`. -/
def Obligations.Log2IsExact : Prop :=
  ∀ (a b c d : Word) (s : State),
    decode ⟨0x0C, a, b, c, d⟩ = .legal (.log2 a) ∧
    (a = 0 → exec (.log2 a) s = .next { s with resLo := 0xFFFFFFFF, resHi := 0, status := 0b011#3 }) ∧
    (a ≠ 0 → ∃ lo : Word, exec (.log2 a) s = .next { s with resLo := lo, resHi := 0, status := 0b001#3 } ∧
      lo.toNat ≤ 31 ∧ 2 ^ lo.toNat ≤ a.toNat ∧ a.toNat < 2 ^ (lo.toNat + 1) ∧
      a.getLsbD lo.toNat = true ∧ ∀ j, lo.toNat < j → a.getLsbD j = false) ∧
    (∀ t, exec (.log2 a) s = .next t → logResult t = if a = 0 then .negInf else .finite t.resLo.toNat) ∧
    (∀ (i : Instr) (t : State), exec i s = .next t → (ninfBit t.status = true ↔ i = .log2 0))

/-- The result of `LOG2` as a sum type: negative infinity for 0, and else the integer logarithm of the number the operand is
(45_log2 R171, R172; 93_implementation_defined U7). -/
def Obligations.Log2ResultAsSumType : Prop :=
  ∀ (a : Word) (s : State), ∃ t, exec (.log2 a) s = .next t ∧
    logResult t = if a.toNat = 0 then .negInf else .finite (Nat.log2 a.toNat)

/-- 46_mult R180: the two result words are the exact product of the operands, over the integers; and no other pair of words is. -/
def Obligations.MulIsExact : Prop :=
  ∀ (a b : Word) (s : State),
    ∃ lo hi : Word, exec (.mul a b) s = .next { s with resLo := lo, resHi := hi, status := 0b001#3 } ∧
      hi.toNat * 2 ^ 32 + lo.toNat = a.toNat * b.toNat ∧
      lo.toNat = a.toNat * b.toNat % 2 ^ 32 ∧ hi.toNat = a.toNat * b.toNat / 2 ^ 32 ∧ hi.toNat ≤ 0xFFFFFFFE ∧
      ∀ lo' hi' : Word, hi'.toNat * 2 ^ 32 + lo'.toNat = a.toNat * b.toNat → hi' = hi ∧ lo' = lo

/-- 46_mult R181: the word of `MUL`, and its result as the two halves of the 64-bit product. -/
def Obligations.MulPlacesProductHalves : Prop :=
  ∀ (a b c d : Word) (s : State),
    decode ⟨0x0D, a, b, c, d⟩ = .legal (.mul a b) ∧
    ∃ lo hi : Word, exec (.mul a b) s = .next { s with resLo := lo, resHi := hi, status := 0b001#3 } ∧
      hi ++ lo = a.setWidth 64 * b.setWidth 64 ∧ (hi = 0 ↔ a.toNat * b.toNat < 2 ^ 32)

/-- 46_mult R183: the reference dataflow of four 16-bit partial products gives the exact product for every input, and so
exactly what `MUL` answers. -/
def Obligations.ReferenceDataflowMeetsContract : Prop :=
  ∀ (a b : Word) (s : State),
    (multDataflow a b).1.toNat * 2 ^ 32 + (multDataflow a b).2.toNat = a.toNat * b.toNat ∧
    exec (.mul a b) s =
      .next { s with resLo := (multDataflow a b).2, resHi := (multDataflow a b).1, status := 0b001#3 }

/-! ### The host's side -/

/-- The host may take the words as a result exactly when `STATUS` is 0b001 (70_reset_and_hazards R238). -/
def Obligations.FlagsBeforeValue : Prop :=
  ∀ o : Outputs,
    (interpretOutputs o = .words o.resHi o.resLo ↔ o.resStatus = 0b001#3) ∧
    (rvalidBit o.resStatus = false → interpretOutputs o = .noResponse) ∧
    (o.resStatus = 0b101#3 → interpretOutputs o = .illegalCommand) ∧
    (o.resStatus = 0b011#3 → interpretOutputs o = .negInf)

/-- 41_bytes R103: `TOU32` truncates toward zero and reduces modulo 2^32, on every finite number; it refuses any other. -/
def Obligations.Tou32TruncatesAndReduces : Prop :=
  (∀ q : Rat, ∃ w, tou32 (.finite q) = some w ∧
    (w.toNat : Int) = (if 0 ≤ q then ⌊q⌋ else ⌈q⌉) % 2 ^ 32) ∧
  tou32 .nonFinite = none

/-- 41_bytes R104: `HIPART` is the floor of the quotient by 2^32, reduced modulo 2^32; with `TOU32` it splits every integer. -/
def Obligations.HipartSplitsNumber : Prop :=
  (∀ q : Rat, ∃ w, hipart (.finite q) = some w ∧ (w.toNat : Int) = ⌊q / 2 ^ 32⌋ % 2 ^ 32) ∧
  hipart .nonFinite = none ∧
  (∀ n : Int, ∃ hi lo, hipart (.finite n) = some hi ∧ tou32 (.finite n) = some lo ∧
    ((hi.toNat : Int) * 2 ^ 32 + lo.toNat) % 2 ^ 64 = n % 2 ^ 64 ∧
    (0 ≤ n → n < 2 ^ 64 → (hi.toNat : Int) * 2 ^ 32 + lo.toNat = n))

/-- `HEX` writes the digits of the number, most significant first, padded with `0` to the asked length and never cut
(41_bytes R105). That the digits of 0 are one `0` is the spec's general knowledge G1 (notes/assumptions/12.md). -/
def Obligations.HexRendersWord : Prop :=
  ∀ (v : Word) (m : Nat),
    (∀ ch ∈ hexText v m, ch ∈ ['0', '1', '2', '3', '4', '5', '6', '7', '8', '9', 'a', 'b', 'c', 'd', 'e', 'f']) ∧
    readNat 16 (hexText v m) = some v.toNat ∧
    (hexText v m).length = max m (naturalHex v).length ∧
    hexText v m = List.replicate (m - (naturalHex v).length) '0' ++ naturalHex v ∧
    (v ≠ 0 → (naturalHex v).head? ≠ some '0') ∧
    (v = 0 → naturalHex v = ['0']) ∧
    (hexText v).length = 8

/-- The host refuses what has no value: a non-finite literal, and `HEX` of anything but a word and a length that is a
non-negative integer (93_implementation_defined U5, U9; 30_encoding R75). -/
def Obligations.HostRefusesWhatHasNoValue : Prop :=
  (∀ (history : List (Word × Word)) (ops : List ListingOperand),
    .number .nonFinite ∈ ops → operandWords history ops = none) ∧
  (∀ x : HostNumber, hexRequest .nonFinite x = none ∧ hexRequest x .nonFinite = none) ∧
  (∀ v m : Rat, (hexRequest (.finite v) (.finite m)).isSome = true ↔
    (∃ n : Nat, v = n ∧ n < 2 ^ 32) ∧ ∃ k : Nat, m = k)

/-- `COPY v` is `OR v`: it loads `RES_LO` with `v` and `RES_HI` with 0 (30_encoding R78). -/
def Obligations.CopyLoadsWord : Prop :=
  ∀ (v : Word) (s : State) (done : Nat),
    expandLine done ⟨.copy, none, [.number (.finite v.toNat)]⟩ = some [⟨.or, none, [.number (.finite v.toNat)]⟩] ∧
    encode (.or [v]) = ⟨0x02, v, 0, 0, 0⟩ ∧
    ∃ t, runListing s [⟨.copy, none, [.number (.finite v.toNat)]⟩] = some (t, [(v, 0)]) ∧
      outputPorts t = ⟨v, 0, 0b001#3⟩

/-- A reference finds the words of the command it names, and a reference to the same or a later command is refused
(30_encoding R76). -/
def Obligations.ReferencesLookBack : Prop :=
  ∀ (history : List (Word × Word)) (k : Nat),
    (∀ h : k < history.length, operandWord history (.resLo (k + 1)) = some history[k].1 ∧
      operandWord history (.resHi (k + 1)) = some history[k].2) ∧
    (k = 0 ∨ history.length < k → operandWord history (.resLo k) = none ∧ operandWord history (.resHi k) = none)

/-- 30_encoding R77: a fold of five or more operands is `1 + ceil((n - 4) / 3)` commands, and the last one leaves the left fold
of all operands in `RES_LO`; a fold of no operand is refused. -/
def Obligations.LongFoldIsLeftFold : Prop :=
  (∀ (v : Word) (vs : List Word) (s : State), 4 ≤ vs.length →
    (∃ t history, runListing s [⟨.or, none, (v :: vs).map fun w => .number (.finite w.toNat)⟩] = some (t, history) ∧
      history.length = 1 + (vs.length + 1 - 4 + 2) / 3 ∧ t.resLo = vs.foldl (· ||| ·) v) ∧
    (∃ t history, runListing s [⟨.and, none, (v :: vs).map fun w => .number (.finite w.toNat)⟩] = some (t, history) ∧
      history.length = 1 + (vs.length + 1 - 4 + 2) / 3 ∧ t.resLo = vs.foldl (· &&& ·) v) ∧
    (∃ t history, runListing s [⟨.xor, none, (v :: vs).map fun w => .number (.finite w.toNat)⟩] = some (t, history) ∧
      history.length = 1 + (vs.length + 1 - 4 + 2) / 3 ∧ t.resLo = vs.foldl (· ^^^ ·) v)) ∧
  ∀ s : State, runListing s [⟨.or, none, []⟩] = none ∧ runListing s [⟨.and, none, []⟩] = none ∧
    runListing s [⟨.xor, none, []⟩] = none
end

