-- ==== Sys2Proof/Laws/Decode.lean ====
section
/-! SUPPORT. The decoder by the fields of the command word, and the fields of a word the encoder builds. -/

namespace Sys2Proof

/-- A command with a defined opcode decodes when `RSV` is `00` and `NM1` is `00` or the opcode is a fold (30_encoding R70). -/
theorem decode_legal {c : Command} {i : Instr} (hr : rsvField c.cmd = 0#2)
    (hi : opcodeInstr c (opField c.cmd).toNat = some i)
    (hn : isFoldOp (opField c.cmd).toNat = true ∨ nm1Field c.cmd = 0#2) : decode c = .legal i := by
  rcases hn with hn | hn <;> simp [decode, hr, hi, hn]

/-- Whatever decodes to a command has these fields (30_encoding R70). -/
theorem fields_of_decode_legal {c : Command} {i : Instr} (h : decode c = .legal i) :
    rsvField c.cmd = 0#2 ∧ opcodeInstr c (opField c.cmd).toNat = some i ∧
      (isFoldOp (opField c.cmd).toNat = true ∨ nm1Field c.cmd = 0#2) := by
  unfold decode at h
  split at h
  · cases h
  · next hr =>
    split at h
    · cases h
    · next j hj =>
      split at h
      · cases h
      · next hn =>
        cases h
        refine ⟨by simpa using hr, hj, ?_⟩
        cases hf : isFoldOp (opField c.cmd).toNat with
        | true => exact .inl rfl
        | false => exact .inr (by simpa [hf] using hn)

/-- The decoder's legality is the spec's predicate (30_encoding R70): a command decodes exactly when its word is legal. -/
theorem decode_isLegal_iff (c : Command) : (∃ i, decode c = .legal i) ↔ legalCmd c.cmd = true := by
  have key : ∀ cmd : CmdWord, legalCmd cmd = true ↔
      rsvField cmd = 0#2 ∧ (opField cmd).toNat ≤ 13 ∧
        (isFoldOp (opField cmd).toNat = true ∨ nm1Field cmd = 0#2) := by decide
  have hop : ∀ n : Nat, n ≤ 13 ↔ ∃ i, opcodeInstr c n = some i := by
    intro n
    refine ⟨fun h => ?_, fun ⟨i, hi⟩ => ?_⟩
    · interval_cases n <;> exact ⟨_, rfl⟩
    · by_contra hn
      have : opcodeInstr c n = none := by
        unfold opcodeInstr
        split <;> first | omega | rfl
      rw [this] at hi
      cases hi
  rw [key]
  refine ⟨fun ⟨i, h⟩ => ?_, fun ⟨hr, hn, hf⟩ => ?_⟩
  · obtain ⟨hr, hi, hf⟩ := fields_of_decode_legal h
    exact ⟨hr, (hop _).2 ⟨i, hi⟩, hf⟩
  · obtain ⟨i, hi⟩ := (hop _).1 hn
    exact ⟨i, decode_legal hr hi hf⟩

@[simp] theorem rsvField_cmdOf (op : BitVec 4) (n : BitVec 2) : rsvField (cmdOf op n) = 0#2 := by
  revert op n; decide

@[simp] theorem opField_cmdOf (op : BitVec 4) (n : BitVec 2) : opField (cmdOf op n) = op := by
  revert op n; decide

@[simp] theorem nm1Field_cmdOf (op : BitVec 4) (n : BitVec 2) : nm1Field (cmdOf op n) = n := by
  revert op n; decide

/-- A command word is its three fields (30_encoding R60). -/
theorem cmdOf_fields (cmd : CmdWord) (h : rsvField cmd = 0#2) : cmdOf (opField cmd) (nm1Field cmd) = cmd := by
  revert cmd; decide

end Sys2Proof
end

