-- ==== Sys2Proof/Laws/Flags.lean ====
section
/-! SUPPORT. The bits of `STATUS` are what it was packed from, and the three statuses as numbers. -/

namespace Sys2Proof.Machine

@[simp] theorem rvalidBit_packStatus (r n i : Bool) : rvalidBit (packStatus r n i) = r := by
  cases r <;> cases n <;> cases i <;> rfl

@[simp] theorem ninfBit_packStatus (r n i : Bool) : ninfBit (packStatus r n i) = n := by
  cases r <;> cases n <;> cases i <;> rfl

@[simp] theorem illBit_packStatus (r n i : Bool) : illBit (packStatus r n i) = i := by
  cases r <;> cases n <;> cases i <;> rfl

/-- `STATUS` is exactly its three bits (10_state R23). -/
theorem packStatus_bits (st : BitVec 3) : packStatus (rvalidBit st) (ninfBit st) (illBit st) = st := by
  revert st; decide

@[simp] theorem rvalidBit_legalStatus (n : Bool) : rvalidBit (legalStatus n) = true := rvalidBit_packStatus ..
@[simp] theorem ninfBit_legalStatus (n : Bool) : ninfBit (legalStatus n) = n := ninfBit_packStatus ..
@[simp] theorem illBit_legalStatus (n : Bool) : illBit (legalStatus n) = false := illBit_packStatus ..
@[simp] theorem rvalidBit_illegalStatus : rvalidBit illegalStatus = true := rfl
@[simp] theorem ninfBit_illegalStatus : ninfBit illegalStatus = false := rfl
@[simp] theorem illBit_illegalStatus : illBit illegalStatus = true := rfl

theorem legalStatus_false : legalStatus false = 0b001#3 := rfl
theorem legalStatus_true : legalStatus true = 0b011#3 := rfl
theorem illegalStatus_eq : illegalStatus = 0b101#3 := rfl
theorem resetStatus_eq : resetStatus = 0b000#3 := rfl

end Sys2Proof.Machine
end

