-- ==== Sys2Proof/Laws/Operands.lean ====
section
/-! SUPPORT. What each piece of a port is as a number, and all that the fold of operands can answer. -/

namespace Sys2Proof.Machine

theorem lowByte_toNat (w : Word) : (lowByte w).toNat = w.toNat % 256 := by
  simp [lowByte]

theorem byteIndex_eq (w : Word) : byteIndex w = w.toNat % 4 := by
  simp [byteIndex]

theorem shiftAmount_eq (w : Word) : shiftAmount w = w.toNat % 32 := by
  simp [shiftAmount]

theorem shiftAmount_lt (w : Word) : shiftAmount w < 32 := by
  rw [shiftAmount_eq]; omega

theorem lowHalf_toNat (w : Word) : (lowHalf w).toNat = w.toNat % 65536 := by
  simp [lowHalf]

theorem highHalf_toNat (w : Word) : (highHalf w).toNat = w.toNat / 65536 := by
  have := w.isLt
  simp [highHalf, Nat.shiftRight_eq_div_pow]
  omega

theorem zext32_toNat {n : Nat} (h : n ≤ 32) (v : BitVec n) : (zext32 v).toNat = v.toNat := by
  simpa [zext32] using Nat.lt_of_lt_of_le v.isLt (Nat.pow_le_pow_right (by decide) h)

/-- A fold of one to four operands answers their left fold (42_logic R120). -/
theorem leftFold_cons (op : Word → Word → Word) (v : Word) (vs : List Word) (h : vs.length ≤ 3) :
    leftFold op (v :: vs) = some (vs.foldl op v) := by
  simp [leftFold, foldOperands, h]

/-- A fold with no operand or with more than four answers nothing (93_implementation_defined U4). -/
theorem leftFold_eq_none (op : Word → Word → Word) (vs : List Word) :
    leftFold op vs = none ↔ vs = [] ∨ 4 < vs.length := by
  cases vs with
  | nil => simp [leftFold, foldOperands]
  | cons v vs => by_cases h : vs.length ≤ 3 <;> simp [leftFold, foldOperands, h] <;> omega

end Sys2Proof.Machine
end

