-- ==== Sys2Proof/Laws/State.lean ====
section
/-! SUPPORT. One lemma per field of State per update, so that no later proof unfolds a record update. -/

namespace Sys2Proof.Machine

@[simp] theorem respond_resLo (lo hi : Word) (ninf : Bool) (s : State) : (respond lo hi ninf s).resLo = lo := rfl
@[simp] theorem respond_resHi (lo hi : Word) (ninf : Bool) (s : State) : (respond lo hi ninf s).resHi = hi := rfl
@[simp] theorem respond_status (lo hi : Word) (ninf : Bool) (s : State) : (respond lo hi ninf s).status = legalStatus ninf := rfl
@[simp] theorem respond_wasReset (lo hi : Word) (ninf : Bool) (s : State) : (respond lo hi ninf s).wasReset = s.wasReset := rfl
@[simp] theorem respond_inputs (lo hi : Word) (ninf : Bool) (s : State) : (respond lo hi ninf s).inputs = s.inputs := rfl
@[simp] theorem respond_faultRecord (lo hi : Word) (ninf : Bool) (s : State) : (respond lo hi ninf s).faultRecord = s.faultRecord := rfl

@[simp] theorem respondWord_resLo (lo : Word) (s : State) : (respondWord lo s).resLo = lo := rfl
@[simp] theorem respondWord_resHi (lo : Word) (s : State) : (respondWord lo s).resHi = 0 := rfl
@[simp] theorem respondWord_status (lo : Word) (s : State) : (respondWord lo s).status = legalStatus false := rfl
@[simp] theorem respondWord_wasReset (lo : Word) (s : State) : (respondWord lo s).wasReset = s.wasReset := rfl
@[simp] theorem respondWord_inputs (lo : Word) (s : State) : (respondWord lo s).inputs = s.inputs := rfl
@[simp] theorem respondWord_faultRecord (lo : Word) (s : State) : (respondWord lo s).faultRecord = s.faultRecord := rfl

@[simp] theorem recordFault_resLo (cmd : CmdWord) (s : State) : (recordFault cmd s).resLo = s.resLo := rfl
@[simp] theorem recordFault_resHi (cmd : CmdWord) (s : State) : (recordFault cmd s).resHi = s.resHi := rfl
@[simp] theorem recordFault_status (cmd : CmdWord) (s : State) : (recordFault cmd s).status = s.status := rfl
@[simp] theorem recordFault_wasReset (cmd : CmdWord) (s : State) : (recordFault cmd s).wasReset = s.wasReset := rfl
@[simp] theorem recordFault_inputs (cmd : CmdWord) (s : State) : (recordFault cmd s).inputs = s.inputs := rfl
@[simp] theorem recordFault_faultRecord (cmd : CmdWord) (s : State) : (recordFault cmd s).faultRecord = s.faultRecord ++ [cmd] := rfl

@[simp] theorem respondIllegal_resLo (cmd : CmdWord) (s : State) : (respondIllegal cmd s).resLo = 0 := rfl
@[simp] theorem respondIllegal_resHi (cmd : CmdWord) (s : State) : (respondIllegal cmd s).resHi = 0 := rfl
@[simp] theorem respondIllegal_status (cmd : CmdWord) (s : State) : (respondIllegal cmd s).status = illegalStatus := rfl
@[simp] theorem respondIllegal_wasReset (cmd : CmdWord) (s : State) : (respondIllegal cmd s).wasReset = s.wasReset := rfl
@[simp] theorem respondIllegal_inputs (cmd : CmdWord) (s : State) : (respondIllegal cmd s).inputs = s.inputs := rfl
@[simp] theorem respondIllegal_faultRecord (cmd : CmdWord) (s : State) : (respondIllegal cmd s).faultRecord = s.faultRecord ++ [cmd] := rfl

@[simp] theorem applyReset_resLo (s : State) : (applyReset s).resLo = 0 := rfl
@[simp] theorem applyReset_resHi (s : State) : (applyReset s).resHi = 0 := rfl
@[simp] theorem applyReset_status (s : State) : (applyReset s).status = resetStatus := rfl
@[simp] theorem applyReset_wasReset (s : State) : (applyReset s).wasReset = true := rfl
@[simp] theorem applyReset_inputs (s : State) : (applyReset s).inputs = s.inputs := rfl
@[simp] theorem applyReset_faultRecord (s : State) : (applyReset s).faultRecord = s.faultRecord := rfl

@[simp] theorem consumeSample_resLo (s : State) : (consumeSample s).resLo = s.resLo := rfl
@[simp] theorem consumeSample_resHi (s : State) : (consumeSample s).resHi = s.resHi := rfl
@[simp] theorem consumeSample_status (s : State) : (consumeSample s).status = s.status := rfl
@[simp] theorem consumeSample_wasReset (s : State) : (consumeSample s).wasReset = s.wasReset := rfl
@[simp] theorem consumeSample_inputs (s : State) : (consumeSample s).inputs = s.inputs.tail := rfl
@[simp] theorem consumeSample_faultRecord (s : State) : (consumeSample s).faultRecord = s.faultRecord := rfl

@[simp] theorem drive_resLo (p : PortSample) (s : State) : (drive p s).resLo = s.resLo := rfl
@[simp] theorem drive_resHi (p : PortSample) (s : State) : (drive p s).resHi = s.resHi := rfl
@[simp] theorem drive_status (p : PortSample) (s : State) : (drive p s).status = s.status := rfl
@[simp] theorem drive_wasReset (p : PortSample) (s : State) : (drive p s).wasReset = s.wasReset := rfl
@[simp] theorem drive_inputs (p : PortSample) (s : State) : (drive p s).inputs = p :: s.inputs.tail := rfl
@[simp] theorem drive_faultRecord (p : PortSample) (s : State) : (drive p s).faultRecord = s.faultRecord := rfl

@[simp] theorem placeCommand_resLo (c : Command) (s : State) : (placeCommand c s).resLo = s.resLo := rfl
@[simp] theorem placeCommand_resHi (c : Command) (s : State) : (placeCommand c s).resHi = s.resHi := rfl
@[simp] theorem placeCommand_status (c : Command) (s : State) : (placeCommand c s).status = s.status := rfl
@[simp] theorem placeCommand_wasReset (c : Command) (s : State) : (placeCommand c s).wasReset = true := rfl
@[simp] theorem placeCommand_inputs (c : Command) (s : State) : (placeCommand c s).inputs = commandSample c :: s.inputs.tail := rfl
@[simp] theorem placeCommand_faultRecord (c : Command) (s : State) : (placeCommand c s).faultRecord = s.faultRecord := rfl

end Sys2Proof.Machine
end

