-- ==== Sys2Proof/Laws/Ops.lean ====
section
/-! SUPPORT. What the shared operations can answer, and what the coming edge shows after the host has driven it. -/

namespace Sys2Proof.Machine

/-- All that a fold can answer: one word with the usual flags, for one to four operands; else a refusal. -/
theorem respondFold_cases (op : Word → Word → Word) (vs : List Word) (s : State) :
    (∃ v ws, vs = v :: ws ∧ ws.length ≤ 3 ∧ respondFold op vs s = .next (respondWord (ws.foldl op v) s)) ∨
      ((vs = [] ∨ 4 < vs.length) ∧ respondFold op vs s = .refused .foldOperandCount) := by
  cases vs with
  | nil => exact .inr ⟨.inl rfl, rfl⟩
  | cons v ws =>
    by_cases h : ws.length ≤ 3
    · exact .inl ⟨v, ws, rfl, h, by simp [respondFold, leftFold_cons op v ws h]⟩
    · have hn := (leftFold_eq_none op (v :: ws)).2 (.inr (by simp; omega))
      exact .inr ⟨.inr (by simp; omega), by simp [respondFold, hn]⟩

@[simp] theorem portsNow_drive (p : PortSample) (s : State) : portsNow (drive p s) = p := rfl
@[simp] theorem portsNow_placeCommand (c : Command) (s : State) : portsNow (placeCommand c s) = commandSample c := rfl
@[simp] theorem consumeSample_drive (p : PortSample) (s : State) : consumeSample (drive p s) = consumeSample s := rfl

end Sys2Proof.Machine
end

