-- ==== Sys2Proof/Laws/Exec.lean ====
section
/-! SUPPORT. All that a command can do: a command that completes is one `respond`, and a well-formed one completes. -/

namespace Sys2Proof.Machine

/-- A fold that completes is one response. -/
theorem respondFold_next {op : Word → Word → Word} {vs : List Word} {s t : State}
    (h : respondFold op vs s = .next t) : ∃ lo, t = respondWord lo s := by
  rcases respondFold_cases op vs s with ⟨v, ws, -, -, hn⟩ | ⟨-, hn⟩ <;> rw [hn] at h <;> cases h
  exact ⟨_, rfl⟩

/-- A fold of one to four operands completes. -/
theorem respondFold_completes (op : Word → Word → Word) {vs : List Word} (s : State) (h : foldCountOk vs = true) :
    ∃ lo, respondFold op vs s = .next (respondWord lo s) := by
  have hc : 1 ≤ vs.length ∧ vs.length ≤ 4 := by simpa [foldCountOk] using h
  rcases respondFold_cases op vs s with ⟨v, ws, -, -, hn⟩ | ⟨rfl | hl, -⟩
  · exact ⟨_, hn⟩
  · simp at hc
  · omega

/-- A command that completes has answered by one `respond`. -/
theorem exec_next {i : Instr} {s t : State} (h : exec i s = .next t) : ∃ lo hi ninf, t = respond lo hi ninf s := by
  have fold : ∀ {op vs}, respondFold op vs s = .next t → ∃ lo hi ninf, t = respond lo hi ninf s := fun hf =>
    (respondFold_next hf).elim fun lo he => ⟨lo, 0, false, he⟩
  cases i with
  | or vs => exact fold h
  | and vs => exact fold h
  | xor vs => exact fold h
  | _ => cases h; exact ⟨_, _, _, rfl⟩

/-- A well-formed command completes. -/
theorem exec_completes {i : Instr} (s : State) (h : i.wellFormed = true) :
    ∃ lo hi ninf, exec i s = .next (respond lo hi ninf s) := by
  have fold : ∀ {vs} op, foldCountOk vs = true → ∃ lo hi ninf, respondFold op vs s = .next (respond lo hi ninf s) :=
    fun op hf => (respondFold_completes op s hf).elim fun lo he => ⟨lo, 0, false, he⟩
  cases i with
  | or vs => exact fold (· ||| ·) h
  | and vs => exact fold (· &&& ·) h
  | xor vs => exact fold (· ^^^ ·) h
  | _ => exact ⟨_, _, _, rfl⟩

end Sys2Proof.Machine
end

