-- ==== Sys2Proof/Laws/PerInstr.lean ====
section
/-! SUPPORT. The law `EncodesLegal`, one lemma per constructor: the encoder writes the opcode of 30_encoding R62 in a command
word that is legal by R70. -/

namespace Sys2Proof.Laws.EncodesLegal

open Sys2Proof.Machine

/-- The command word of a well-formed instruction carries its opcode and is legal (30_encoding R62, R64, R70). -/
def Statement (i : Instr) : Prop :=
  i.wellFormed = true → (opField (encode i).cmd).toNat = opcodeOf i ∧ legalCmd (encode i).cmd = true

/-- Whatever the operand count, a fold's command word carries the fold's opcode and is legal. -/
theorem foldWord_legal (op : BitVec 4) (n : BitVec 2) (h : op = 0x2#4 ∨ op = 0x3#4 ∨ op = 0x4#4) :
    opField (cmdOf op n) = op ∧ legalCmd (cmdOf op n) = true := by
  rcases h with rfl | rfl | rfl <;> revert n <;> decide

/-- A command word with `NM1 = 00` and a defined opcode carries it and is legal. -/
theorem plainWord_legal (op : BitVec 4) (h : op ≤ 0xD#4) :
    opField (cmdOf op 0#2) = op ∧ legalCmd (cmdOf op 0#2) = true := by
  revert op; decide

theorem pack (b0 b1 b2 b3 : Word) : Statement (.pack b0 b1 b2 b3) :=
  fun _ => ⟨rfl, (plainWord_legal 0x0#4 (by decide)).2⟩
theorem getb (value byteNo : Word) : Statement (.getb value byteNo) :=
  fun _ => ⟨rfl, (plainWord_legal 0x1#4 (by decide)).2⟩

theorem or (vs : List Word) : Statement (.or vs) := fun _ =>
  have h := foldWord_legal 0x2#4 (BitVec.ofNat 2 (vs.length - 1)) (.inl rfl)
  ⟨congrArg BitVec.toNat h.1, h.2⟩

theorem and (vs : List Word) : Statement (.and vs) := fun _ =>
  have h := foldWord_legal 0x3#4 (BitVec.ofNat 2 (vs.length - 1)) (.inr (.inl rfl))
  ⟨congrArg BitVec.toNat h.1, h.2⟩

theorem xor (vs : List Word) : Statement (.xor vs) := fun _ =>
  have h := foldWord_legal 0x4#4 (BitVec.ofNat 2 (vs.length - 1)) (.inr (.inr rfl))
  ⟨congrArg BitVec.toNat h.1, h.2⟩

theorem not (value : Word) : Statement (.not value) :=
  fun _ => ⟨rfl, (plainWord_legal 0x5#4 (by decide)).2⟩
theorem shl (value n : Word) : Statement (.shl value n) :=
  fun _ => ⟨rfl, (plainWord_legal 0x6#4 (by decide)).2⟩
theorem shr (value n : Word) : Statement (.shr value n) :=
  fun _ => ⟨rfl, (plainWord_legal 0x7#4 (by decide)).2⟩
theorem rotl (value n : Word) : Statement (.rotl value n) :=
  fun _ => ⟨rfl, (plainWord_legal 0x8#4 (by decide)).2⟩
theorem rotr (value n : Word) : Statement (.rotr value n) :=
  fun _ => ⟨rfl, (plainWord_legal 0x9#4 (by decide)).2⟩
theorem ch (x y z : Word) : Statement (.ch x y z) :=
  fun _ => ⟨rfl, (plainWord_legal 0xA#4 (by decide)).2⟩
theorem maj (x y z : Word) : Statement (.maj x y z) :=
  fun _ => ⟨rfl, (plainWord_legal 0xB#4 (by decide)).2⟩
theorem log2 (value : Word) : Statement (.log2 value) :=
  fun _ => ⟨rfl, (plainWord_legal 0xC#4 (by decide)).2⟩
theorem mul (a b : Word) : Statement (.mul a b) :=
  fun _ => ⟨rfl, (plainWord_legal 0xD#4 (by decide)).2⟩

end Sys2Proof.Laws.EncodesLegal
end

