-- ==== Sys2Proof/Laws/Step.lean ====
section
/-! SUPPORT. Which event an edge is, and all that a step can be. -/

namespace Sys2Proof.Machine

theorem edgeEvent_reset {s : State} (h : (portsNow s).rst = true) : edgeEvent s = .reset := by
  simp [edgeEvent, h]

theorem edgeEvent_idle {s : State} (h : (portsNow s).rst = false) (hv : (portsNow s).cmdValid = false) :
    edgeEvent s = .idle := by
  simp [edgeEvent, h, hv]

theorem edgeEvent_beforeReset {s : State} (h : (portsNow s).rst = false) (hv : (portsNow s).cmdValid = true)
    (hw : s.wasReset = false) : edgeEvent s = .beforeReset := by
  simp [edgeEvent, h, hv, hw]

theorem edgeEvent_command {s : State} (h : (portsNow s).rst = false) (hv : (portsNow s).cmdValid = true)
    (hw : s.wasReset = true) : edgeEvent s = commandEvent (portsNow s).command := by
  simp [edgeEvent, h, hv, hw]

theorem commandEvent_legal {c : Command} {i : Instr} (h : decode c = .legal i) : commandEvent c = .execute i := by
  simp [commandEvent, h]

theorem commandEvent_illegal {c : Command} {why : IllegalReason} (h : decode c = .illegal why) :
    commandEvent c = .illegal c.cmd := by
  simp [commandEvent, h]

/-- All that a step can be: a reset edge, an idle edge, a command before the first reset, an illegal command, or the meaning
of a legal one. -/
theorem step_cases (s : State) :
    ((portsNow s).rst = true ∧ step s = .next (applyReset (consumeSample s))) ∨
    ((portsNow s).rst = false ∧ (portsNow s).cmdValid = false ∧ step s = .next (consumeSample s)) ∨
    ((portsNow s).rst = false ∧ (portsNow s).cmdValid = true ∧ s.wasReset = false ∧
      step s = .refused .commandBeforeReset) ∨
    ((portsNow s).rst = false ∧ (portsNow s).cmdValid = true ∧ s.wasReset = true ∧
      ((∃ why, decode (portsNow s).command = .illegal why ∧
          step s = .next (respondIllegal (portsNow s).command.cmd (consumeSample s))) ∨
        ∃ i, decode (portsNow s).command = .legal i ∧ step s = exec i (consumeSample s))) := by
  cases h : (portsNow s).rst with
  | true => exact .inl ⟨rfl, by simp [step, edgeEvent_reset h]⟩
  | false =>
    cases hv : (portsNow s).cmdValid with
    | false => exact .inr (.inl ⟨rfl, rfl, by simp [step, edgeEvent_idle h hv]⟩)
    | true =>
      cases hw : s.wasReset with
      | false => exact .inr (.inr (.inl ⟨rfl, rfl, rfl, by simp [step, edgeEvent_beforeReset h hv hw]⟩))
      | true =>
        refine .inr (.inr (.inr ⟨rfl, rfl, rfl, ?_⟩))
        cases hd : decode (portsNow s).command with
        | illegal why =>
          exact .inl ⟨why, rfl, by simp [step, edgeEvent_command h hv hw, commandEvent_illegal hd]⟩
        | legal i => exact .inr ⟨i, rfl, by simp [step, edgeEvent_command h hv hw, commandEvent_legal hd]⟩

end Sys2Proof.Machine
end

