-- ==== Sys2Proof/Tests/Slice0.lean ====
section
/-! SUPPORT. The model's own tests: words written out from 30_encoding, vectors of 95_test_vectors, and for every statement that
has hypotheses a concrete case that meets them. -/

namespace Sys2Proof.Tests

open Sys2Proof.Machine

/-- A block just reset, with one command presented at the coming edge. -/
def presented (c : Command) : State := drive (commandSample c) State.reset

/-- Whether an outcome is a next state. -/
def isNext : Result → Bool
  | .next _ => true
  | .fault _ => false
  | .refused _ => false

theorem exists_next_of_isNext {r : Result} (h : isNext r = true) : ∃ t, r = .next t := by
  cases r with
  | next t => exact ⟨t, rfl⟩
  | fault _ => cases h
  | refused _ => cases h

/-- What the ports show after one edge. -/
def portsAfter (s : State) : Option Outputs :=
  match step s with
  | .next t => some (outputPorts t)
  | .fault _ => none
  | .refused _ => none

/-- What the ports show after one command from reset. -/
def answer (cmd : CmdWord) (a b c d : Word) : Option Outputs := portsAfter (presented ⟨cmd, a, b, c, d⟩)

/-! ### Well-formedness: a term the check refuses, for each of its checks, and the nearest it accepts -/

theorem test_wf_refuses_fold_of_none : (Instr.or []).wellFormed = false := by decide
theorem test_wf_refuses_fold_of_five : (Instr.and [1, 2, 3, 4, 5]).wellFormed = false := by decide
theorem test_wf_accepts_fold_of_one_and_four :
    (Instr.xor [1]).wellFormed = true ∧ (Instr.xor [1, 2, 3, 4]).wellFormed = true := by decide

/-! ### Decoding: words written out bit by bit, `RSV` `NM1` `OP` (30_encoding R60, R62) -/

theorem test_decode_pack : decode ⟨0b00_00_0000, 1, 2, 3, 4⟩ = .legal (.pack 1 2 3 4) := by decide
theorem test_decode_getb : decode ⟨0b00_00_0001, 1, 2, 3, 4⟩ = .legal (.getb 1 2) := by decide
theorem test_decode_or2 : decode ⟨0b00_01_0010, 1, 2, 3, 4⟩ = .legal (.or [1, 2]) := by decide
theorem test_decode_and3 : decode ⟨0b00_10_0011, 1, 2, 3, 4⟩ = .legal (.and [1, 2, 3]) := by decide
theorem test_decode_xor4 : decode ⟨0b00_11_0100, 1, 2, 3, 4⟩ = .legal (.xor [1, 2, 3, 4]) := by decide
theorem test_decode_not : decode ⟨0b00_00_0101, 1, 2, 3, 4⟩ = .legal (.not 1) := by decide
theorem test_decode_shl : decode ⟨0b00_00_0110, 1, 2, 3, 4⟩ = .legal (.shl 1 2) := by decide
theorem test_decode_shr : decode ⟨0b00_00_0111, 1, 2, 3, 4⟩ = .legal (.shr 1 2) := by decide
theorem test_decode_rotl : decode ⟨0b00_00_1000, 1, 2, 3, 4⟩ = .legal (.rotl 1 2) := by decide
theorem test_decode_rotr : decode ⟨0b00_00_1001, 1, 2, 3, 4⟩ = .legal (.rotr 1 2) := by decide
theorem test_decode_ch : decode ⟨0b00_00_1010, 1, 2, 3, 4⟩ = .legal (.ch 1 2 3) := by decide
theorem test_decode_maj : decode ⟨0b00_00_1011, 1, 2, 3, 4⟩ = .legal (.maj 1 2 3) := by decide
theorem test_decode_log2 : decode ⟨0b00_00_1100, 1, 2, 3, 4⟩ = .legal (.log2 1) := by decide
theorem test_decode_mul : decode ⟨0b00_00_1101, 1, 2, 3, 4⟩ = .legal (.mul 1 2) := by decide
theorem test_decode_reserved_opcode : decode ⟨0x0E, 0, 0, 0, 0⟩ = .illegal .reservedOpcode := by decide
theorem test_decode_count_on_not : decode ⟨0x15, 0, 0, 0, 0⟩ = .illegal .operandCount := by decide
theorem test_decode_reserved_bits : decode ⟨0x42, 0, 0, 0, 0⟩ = .illegal .reservedBits := by decide

/-- 30_encoding R67: exactly 23 of the 256 command words are legal. -/
theorem test_legal_word_count : ((List.range 256).filter fun n => legalCmd (BitVec.ofNat 8 n)).length = 23 := by decide

/-- The host's numbering: `CMD` in bits 7 to 0, operands zero above the row's bits. -/
theorem test_decodeTableWord_mul : decodeTableWord 8 0x0D = some (.mul 0 0) := by decide
theorem test_withFetchWord_runs :
    portsAfter (State.reset.withFetchWord 8 0x0C) = some ⟨0xFFFFFFFF, 0, 0b011#3⟩ := by decide

/-! ### Commands, by vectors of 95_test_vectors sections 1 and 2 -/

theorem test_pack : answer 0x00 0x12 0x34 0x56 0x78 = some ⟨0x12345678, 0, 0b001#3⟩ := by decide
theorem test_pack_masks :
    answer 0x00 0x100 0x2AB 0xFFFFFF00 0x12345678 = some ⟨0x00AB0078, 0, 0b001#3⟩ := by decide
theorem test_getb_junk : answer 0x01 0x12345678 1 0xDEADBEEF 0xCAFEF00D = some ⟨0x34, 0, 0b001#3⟩ := by decide
theorem test_getb_index_wraps : answer 0x01 0x12345678 0xFFFFFFFF 0 0 = some ⟨0x78, 0, 0b001#3⟩ := by decide
theorem test_or4 : answer 0x32 1 2 4 8 = some ⟨0x0F, 0, 0b001#3⟩ := by decide
theorem test_or1 : answer 0x02 0xDEADBEEF 0 0 0 = some ⟨0xDEADBEEF, 0, 0b001#3⟩ := by decide
theorem test_and4 : answer 0x33 3 11 19 35 = some ⟨3, 0, 0b001#3⟩ := by decide
theorem test_and2_ignores_c : answer 0x13 0xFFFFFFFF 0x0F 0 0 = some ⟨0x0F, 0, 0b001#3⟩ := by decide
theorem test_xor4 : answer 0x34 1 2 4 8 = some ⟨15, 0, 0b001#3⟩ := by decide
theorem test_xor3 : answer 0x24 0xAAAAAAAA 0xAAAAAAAA 0x55555555 0 = some ⟨0x55555555, 0, 0b001#3⟩ := by decide
theorem test_not : answer 0x05 0x12345678 0 0 0 = some ⟨0xEDCBA987, 0, 0b001#3⟩ := by decide
theorem test_shl : answer 0x06 0x12345678 4 0 0 = some ⟨0x23456780, 0, 0b001#3⟩ := by decide
theorem test_shl_amount_wraps : answer 0x06 3 0xFFFFFFFF 0 0 = some ⟨0x80000000, 0, 0b001#3⟩ := by decide
theorem test_shr_logical : answer 0x07 0x80000000 31 0 0 = some ⟨1, 0, 0b001#3⟩ := by decide
theorem test_shr_amount_wraps : answer 0x07 0x12345678 36 0 0 = some ⟨0x01234567, 0, 0b001#3⟩ := by decide
theorem test_rotl : answer 0x08 0x12345678 31 0 0 = some ⟨0x091A2B3C, 0, 0b001#3⟩ := by decide
theorem test_rotl_zero : answer 0x08 0x12345678 32 0 0 = some ⟨0x12345678, 0, 0b001#3⟩ := by decide
theorem test_rotr : answer 0x09 0x12345678 4 0 0 = some ⟨0x81234567, 0, 0b001#3⟩ := by decide
theorem test_rotr_zero : answer 0x09 0x12345678 0 0 0 = some ⟨0x12345678, 0, 0b001#3⟩ := by decide
theorem test_ch : answer 0x0A 0x01010202 0x00010001 0x01000100 0 = some ⟨0x00010100, 0, 0b001#3⟩ := by decide
theorem test_maj : answer 0x0B 0x0000FFFF 0x00FF00FF 0x0F0F0F0F 0 = some ⟨0x000F0FFF, 0, 0b001#3⟩ := by decide
theorem test_log2_zero : answer 0x0C 0 0 0 0 = some ⟨0xFFFFFFFF, 0, 0b011#3⟩ := by decide
theorem test_log2_below_power : answer 0x0C 0x7FFFFFFF 0 0 0 = some ⟨30, 0, 0b001#3⟩ := by decide
theorem test_mul_regression :
    answer 0x0D 0xFA93896B 0xA1A9F539 0 0 = some ⟨0xFFFFFFD3, 0x9E3D24D8, 0b001#3⟩ := by decide
theorem test_mul_largest :
    answer 0x0D 0xFFFFFFFF 0xFFFFFFFF 0 0 = some ⟨1, 0xFFFFFFFE, 0b001#3⟩ := by decide
/-- The intermediates of 46_mult R182 for the regression pair. -/
theorem test_dataflow_middle : middleColumn 0x83A1FFD3 0x56C702A3 0xF00679BB = 0x0FFFF#18 := by decide
theorem test_dataflow : multDataflow 0xFA93896B 0xA1A9F539 = (0x9E3D24D8, 0xFFFFFFD3) := by decide

/-! ### Edges: illegal words, reset, idle (95_test_vectors 2.7, P6) -/

theorem test_illegal : answer 0xFF 0x11111111 0x22222222 0x33333333 0x44444444 = some ⟨0, 0, 0b101#3⟩ := by decide
theorem test_illegal_recorded :
    (match step (presented ⟨0x4C, 1, 0, 0, 0⟩) with | .next t => t.faultRecord | _ => []) = [0x4C] := by decide
theorem test_reset_wins :
    portsAfter (drive ⟨true, true, ⟨0x05, 0, 0, 0, 0⟩⟩ (respond 1 0xFFFFFFFE false State.reset)) = some ⟨0, 0, 0⟩ := by
  decide
theorem test_idle_keeps :
    portsAfter (respond 1 0xFFFFFFFE false State.reset) = some ⟨1, 0xFFFFFFFE, 0b001#3⟩ := by decide
theorem test_log2_after_negInf_clears_flag :
    portsAfter (drive (commandSample ⟨0x0C, 1, 0, 0, 0⟩) (respond 0xFFFFFFFF 0 true State.reset)) =
      some ⟨0, 0, 0b001#3⟩ := by decide

/-! ### The host's side (95_test_vectors 1, 2.1, P4, P5) -/

theorem test_tou32 : tou32 (.finite (-3 / 2)) = some 0xFFFFFFFF ∧ tou32 (.finite (-1 / 2)) = some 0 ∧
    tou32 (.finite 0x010000000004) = some 4 := by decide +kernel
theorem test_hipart : hipart (.finite 0x0123456789AB) = some 0x00000123 ∧
    hipart (.finite (-1 / 2)) = some 0xFFFFFFFF := by decide +kernel
theorem test_hex : hexText 0xABCDEF = "00abcdef".toList ∧ hexText 0x123 2 = "123".toList ∧
    hexText 0 0 = "0".toList ∧ hexText 1 10 = "0000000001".toList := by decide +kernel
theorem test_hex_refused : hexRequest (.finite 1) (.finite (-1)) = none ∧
    hexRequest (.finite 1) (.finite 2) = some "01".toList := by decide +kernel
theorem test_long_fold_expands :
    expandLine 0 ⟨.xor, none, [1, 2, 4, 8, 16, 32].map fun n => .number (.finite n)⟩ =
      some [⟨.xor, none, [1, 2, 4, 8].map fun n => .number (.finite n)⟩,
        ⟨.xor, none, [.resLo 1, .number (.finite 16), .number (.finite 32)]⟩] := by decide +kernel
theorem test_listing_runs :
    ((readListing ["XOR 0x1, 0x2, 0x4, 0x8, 0x10, 0x20 ; P4 (a)".toList]).bind fun ls =>
      (runListing State.reset ls).map fun p => outputPorts p.1) = some ⟨0x3F, 0, 0b001#3⟩ := by decide +kernel
theorem test_line_reads :
    readLine "OR.3 @1.lo, -1.5, 0xff".toList =
      some ⟨.or, some 3, [.resLo 1, .number (.finite (-3 / 2)), .number (.finite 255)]⟩ := by decide +kernel
theorem test_later_reference_refused : operandWord [(1, 2)] (.resLo 2) = none := by decide

/-! ### For each statement with hypotheses, a case that meets them all -/

theorem witness_CommandWordMapIsComplete :
    (0x0E : CmdWord) ∉ ([0x00, 0x01, 0x02, 0x12, 0x22, 0x32, 0x03, 0x13, 0x23, 0x33, 0x04, 0x14, 0x24, 0x34] : List CmdWord) ++
      [0x05, 0x06, 0x07, 0x08, 0x09, 0x0A, 0x0B, 0x0C, 0x0D] := by decide
theorem witness_DecodeOfEncodeIsIdentity :
    (Instr.or [1]).wellFormed = true ∧ (Instr.or [1, 2, 3, 4]).wellFormed = true ∧
      (Instr.mul 0xFFFFFFFF 0).wellFormed = true := by decide
theorem witness_EncodeOfDecodeKeepsReadBits :
    decode ⟨0x13, 1, 2, 3, 4⟩ = .legal (.and [1, 2]) ∧ decode ⟨0x00, 0x1FF, 2, 3, 4⟩ = .legal (.pack 0x1FF 2 3 4) := by
  decide
theorem witness_TableRowsMatchUnderMask :
    (0xD ≠ 2 ∧ 0xD ≠ 3 ∧ 0xD ≠ 4) ∧ ((0x0D : CmdWord).toNat = 0xD) ∧ (0x34 : CmdWord) &&& 0xCF = 0x04 := by decide
theorem witness_OperationDependsOnCmdAlone :
    (⟨0x06, 1, 2, 3, 4⟩ : Command).cmd = (⟨0x06, 5, 6, 7, 8⟩ : Command).cmd ∧
      (⟨0x0E, 1, 2, 3, 4⟩ : Command).cmd = (⟨0x0E, 5, 6, 7, 8⟩ : Command).cmd := by decide
theorem witness_StepRunsDecodedCommand :
    Accepts (presented ⟨0x0D, 3, 5, 0, 0⟩) ⟨0x0D, 3, 5, 0, 0⟩ ∧ decode ⟨0x0D, 3, 5, 0, 0⟩ = .legal (.mul 3 5) := by decide
theorem witness_LegalityDecidesDispatch :
    (Accepts (presented ⟨0x34, 1, 2, 4, 8⟩) ⟨0x34, 1, 2, 4, 8⟩ ∧ LegalNumber 0x34) ∧
      (Accepts (presented ⟨0x35, 1, 2, 4, 8⟩) ⟨0x35, 1, 2, 4, 8⟩ ∧ ¬ LegalNumber 0x35) := by decide
theorem witness_ResetEdgeLoadsResetValues :
    (portsNow (drive ⟨true, true, ⟨0x05, 0, 0, 0, 0⟩⟩ State.reset)).rst = true := by decide
theorem witness_ResetEdgesShowResetValues :
    (∀ q ∈ [(⟨true, true, ⟨0x05, 0, 0, 0, 0⟩⟩ : PortSample), resetSample], q.rst = true) ∧
      (powerUp [⟨true, true, ⟨0x05, 0, 0, 0, 0⟩⟩, resetSample, idleSample]).inputs =
        ⟨true, true, ⟨0x05, 0, 0, 0, 0⟩⟩ :: ([resetSample] ++ [idleSample]) := ⟨by decide, rfl⟩
theorem witness_IdleEdgeChangesNoRegister :
    (portsNow (drive ⟨false, false, ⟨0x0D, 1, 1, 1, 1⟩⟩ State.reset)).rst = false ∧
      (portsNow (drive ⟨false, false, ⟨0x0D, 1, 1, 1, 1⟩⟩ State.reset)).cmdValid = false ∧
      (portsNow State.reset).rst = false ∧ (portsNow State.reset).cmdValid = false ∧
      Accepts (presented ⟨0x02, 0, 0, 0, 0⟩) ⟨0x02, 0, 0, 0, 0⟩ ∧ rvalidBit (presented ⟨0x02, 0, 0, 0, 0⟩).status = false := by
  decide
theorem witness_IllegalCommandResponse :
    (Accepts (presented ⟨0x0E, 1, 2, 3, 4⟩) ⟨0x0E, 1, 2, 3, 4⟩ ∧ ¬ LegalNumber 0x0E) ∧
      ∃ t, exec (.log2 0) (respondIllegal 0x0E State.reset) = .next t :=
  ⟨by decide, exists_next_of_isNext (by decide)⟩
theorem witness_IllegalCommandThenLegal :
    Accepts { State.reset with inputs := [commandSample ⟨0x45, 0, 0, 0, 0⟩, commandSample ⟨0x05, 0, 0, 0, 0⟩] }
        ⟨0x45, 0, 0, 0, 0⟩ ∧
      ¬ LegalNumber 0x45 ∧ (commandSample ⟨0x05, 0, 0, 0, 0⟩).rst = false ∧
      (commandSample ⟨0x05, 0, 0, 0, 0⟩).cmdValid = true ∧ LegalNumber 0x05 := by decide
theorem witness_NothingKnownBeforeReset :
    (presented ⟨0x05, 0, 0, 0, 0⟩).wasReset = true ∧
    (powerUp [commandSample ⟨0x05, 0, 0, 0, 0⟩]).wasReset = false ∧
      (portsNow (powerUp [commandSample ⟨0x05, 0, 0, 0, 0⟩])).rst = false ∧
      (portsNow (powerUp [commandSample ⟨0x05, 0, 0, 0, 0⟩])).cmdValid = true ∧
      step (powerUp [commandSample ⟨0x05, 0, 0, 0, 0⟩]) = .refused .commandBeforeReset ∧ resetSample.rst = true :=
  ⟨rfl, rfl, rfl, rfl, rfl, rfl⟩
theorem witness_RegistersAfterReset : (portsNow (drive resetSample State.reset)).rst = true := by decide
theorem witness_StepKeepsInvariant :
    State.Inv (presented ⟨0x0C, 0, 0, 0, 0⟩) ∧ ∃ t, step (presented ⟨0x0C, 0, 0, 0, 0⟩) = .next t :=
  ⟨by decide, exists_next_of_isNext (by decide)⟩
theorem witness_NoCommandRaisesException :
    decode ⟨0x06, 1, 0xFFFFFFFF, 0, 0⟩ = .legal (.shl 1 0xFFFFFFFF) := by decide
theorem witness_BlockNeverHalts : (presented ⟨0xFF, 0, 0, 0, 0⟩).wasReset = true := by decide
theorem witness_FlagsAfterEachCommand :
    Accepts (presented ⟨0x0C, 0, 9, 9, 9⟩) ⟨0x0C, 0, 9, 9, 9⟩ ∧ Accepts (presented ⟨0x0C, 1, 0, 0, 0⟩) ⟨0x0C, 1, 0, 0, 0⟩ ∧
      Accepts (presented ⟨0x4C, 0, 0, 0, 0⟩) ⟨0x4C, 0, 0, 0, 0⟩ ∧ (portsNow (drive resetSample State.reset)).rst = true := by
  decide
theorem witness_ThreeOutcomeCodes :
    Accepts (presented ⟨0x05, 0, 0, 0, 0⟩) ⟨0x05, 0, 0, 0, 0⟩ ∧ Accepts (presented ⟨0x0C, 0, 0, 0, 0⟩) ⟨0x0C, 0, 0, 0, 0⟩ ∧
      Accepts (presented ⟨0x3C, 0, 0, 0, 0⟩) ⟨0x3C, 0, 0, 0, 0⟩ := by decide
theorem witness_ResponseIsFunctionOfCommand :
    Accepts (presented ⟨0x0D, 3, 5, 0, 0⟩) ⟨0x0D, 3, 5, 0, 0⟩ ∧
      Accepts (drive (commandSample ⟨0x0D, 3, 5, 0, 0⟩) (respondIllegal 0xFF State.reset)) ⟨0x0D, 3, 5, 0, 0⟩ := by decide
theorem witness_UnreadBitsHaveNoEffect :
    SameReadBits ⟨0x00, 0x1FF, 0, 0, 0⟩ ⟨0x00, 0xFF, 0x100, 0, 0⟩ ∧ SameReadBits ⟨0x13, 1, 2, 3, 4⟩ ⟨0x13, 1, 2, 5, 6⟩ ∧
      SameReadBits ⟨0x06, 1, 33, 3, 4⟩ ⟨0x06, 1, 1, 5, 6⟩ ∧ SameReadBits ⟨0x0E, 1, 2, 3, 4⟩ ⟨0x0E, 5, 6, 7, 8⟩ := by decide
theorem witness_PortsShowLastResponse :
    ({ State.reset with inputs := [resetSample, commandSample ⟨0x05, 0, 0, 0, 0⟩, idleSample] } : State).inputs =
        [resetSample] ++ commandSample ⟨0x05, 0, 0, 0, 0⟩ :: ([idleSample] ++ []) ∧
      (∀ p ∈ [idleSample], p.rst = false ∧ p.cmdValid = false) ∧ State.reset.wasReset = true := by decide
theorem witness_FaultRecordIsKept :
    ((∃ t, step (presented ⟨0x0E, 0, 0, 0, 0⟩) = .next t) ∧
        Accepts (presented ⟨0x0E, 0, 0, 0, 0⟩) ⟨0x0E, 0, 0, 0, 0⟩ ∧ ¬ LegalNumber 0x0E) ∧
      (∃ t, step State.reset = .next t) ∧ ∀ c, Accepts State.reset c → LegalNumber c.cmd :=
  ⟨⟨exists_next_of_isNext (by decide), by decide⟩, exists_next_of_isNext (by decide),
    fun _ h => absurd h.2.2.1 (by decide)⟩
theorem witness_CommandsChangeOnlyResultRegisters :
    (∃ t, exec (.mul 7 9) State.reset = .next t) ∧ (∃ t, exec (.log2 0) State.reset = .next t) ∧
      ∃ t, exec (.and [1, 2]) State.reset = .next t :=
  ⟨exists_next_of_isNext (by decide), exists_next_of_isNext (by decide), exists_next_of_isNext (by decide)⟩
theorem witness_OrSetsBitOfAnyOperand :
    (1 ≤ ([1] : List Word).length ∧ ([1] : List Word).length ≤ 4) ∧
      (1 ≤ ([1, 2, 4, 8] : List Word).length ∧ ([1, 2, 4, 8] : List Word).length ≤ 4) := by decide
theorem witness_AndSetsBitOfAllOperands :
    (1 ≤ ([7] : List Word).length ∧ ([7] : List Word).length ≤ 4) ∧
      (1 ≤ ([3, 11, 19, 35] : List Word).length ∧ ([3, 11, 19, 35] : List Word).length ≤ 4) := by decide
theorem witness_XorSetsBitOfOddOperands :
    (1 ≤ ([5] : List Word).length ∧ ([5] : List Word).length ≤ 4) ∧
      (1 ≤ ([1, 1, 1, 1] : List Word).length ∧ ([1, 1, 1, 1] : List Word).length ≤ 4) := by decide
theorem witness_FoldWithoutCommandRefused :
    (([] : List Word) = [] ∨ 4 < ([] : List Word).length) ∧
      (([1, 2, 3, 4, 5] : List Word) = [] ∨ 4 < ([1, 2, 3, 4, 5] : List Word).length) := by decide
theorem witness_RotlRotatesLeft : (32 : Word).toNat % 32 = 0 ∧ (31 : Word).toNat % 32 ≠ 0 := by decide
theorem witness_RotrRotatesRight : (0 : Word).toNat % 32 = 0 ∧ (1 : Word).toNat % 32 ≠ 0 := by decide
theorem witness_RotationIdentities : (0 ≤ 31) ∧ (31 ≤ 31 ∧ 1 ≤ 31) := by decide
theorem witness_Log2IsExact :
    ((0 : Word) = 0 ∧ (1 : Word) ≠ 0 ∧ (0xFFFFFFFF : Word) ≠ 0) ∧ (∃ t, exec (.log2 1) State.reset = .next t) ∧
      ∃ t, exec (.not 1) State.reset = .next t :=
  ⟨by decide, exists_next_of_isNext (by decide), exists_next_of_isNext (by decide)⟩
theorem witness_MulIsExact :
    (0x9E3D24D8 : Word).toNat * 2 ^ 32 + (0xFFFFFFD3 : Word).toNat = (0xFA93896B : Word).toNat * (0xA1A9F539 : Word).toNat := by
  decide
theorem witness_FlagsBeforeValue : rvalidBit 0b000#3 = false ∧ rvalidBit 0b110#3 = false := by decide
theorem witness_HipartSplitsNumber : (0 : Int) ≤ 0x0123456789AB ∧ (0x0123456789AB : Int) < 2 ^ 64 := by decide
theorem witness_HexRendersWord : (1 : Word) ≠ 0 ∧ '0' ∈ hexText 0 0 := by decide
theorem witness_HostRefusesWhatHasNoValue :
    .number .nonFinite ∈ ([.resLo 1, .number .nonFinite] : List ListingOperand) := by decide
theorem witness_ReferencesLookBack :
    0 < ([(1, 2)] : List (Word × Word)).length ∧ (2 = 0 ∨ ([(1, 2)] : List (Word × Word)).length < 2) := by decide
theorem witness_LongFoldIsLeftFold : 4 ≤ ([2, 3, 4, 5] : List Word).length := by decide

end Sys2Proof.Tests
end

section
/-! PROOFS of the family 00_scope. What an accepted command does, that its response is the same in every state (R3), and that
the bits of the ports it does not read have no effect (R9). -/

namespace Sys2Proof.Machine

/-! ### An accepted command -/

theorem step_of_accepts {s : State} {c : Command} (h : Accepts s c) :
    (∃ why, decode c = .illegal why ∧ step s = .next (respondIllegal c.cmd (consumeSample s))) ∨
      ∃ i, decode c = .legal i ∧ step s = exec i (consumeSample s) := by
  obtain ⟨hw, hr, hv, rfl⟩ := h
  rcases step_cases s with ⟨hr', -⟩ | ⟨-, hv', -⟩ | ⟨-, -, hw', -⟩ | ⟨-, -, -, hcmd⟩
  · simp [hr] at hr'
  · simp [hv] at hv'
  · simp [hw] at hw'
  · exact hcmd

theorem step_of_accepts_legal {s : State} {c : Command} {i : Instr} (h : Accepts s c) (hd : decode c = .legal i) :
    step s = exec i (consumeSample s) := by
  rcases step_of_accepts h with ⟨why, hd', -⟩ | ⟨j, hd', hs⟩ <;> rw [hd] at hd' <;> cases hd'
  exact hs

theorem step_of_accepts_illegal {s : State} {c : Command} {why : IllegalReason} (h : Accepts s c)
    (hd : decode c = .illegal why) : step s = .next (respondIllegal c.cmd (consumeSample s)) := by
  rcases step_of_accepts h with ⟨why', -, hs⟩ | ⟨j, hd', -⟩
  · exact hs
  · rw [hd] at hd'; cases hd'

theorem accepts_drive_commandSample {s : State} (c : Command) (hw : s.wasReset = true) :
    Accepts (drive (commandSample c) s) c :=
  ⟨hw, rfl, rfl, rfl⟩

theorem step_drive_commandSample_beforeReset {s : State} (c : Command) (hw : s.wasReset = false) :
    step (drive (commandSample c) s) = .refused .commandBeforeReset := by
  have he : edgeEvent (drive (commandSample c) s) = .beforeReset := edgeEvent_beforeReset rfl rfl hw
  simp [step, he]

/-! ### One response for every state -/

theorem foldCountOk_foldPorts (c : Command) : foldCountOk (foldPorts c) = true := by
  simp [foldCountOk, foldPorts]

/-- The decoder makes only terms that have a command word. -/
theorem wellFormed_of_opcodeInstr {c : Command} {op : Nat} {i : Instr} (h : opcodeInstr c op = some i) :
    i.wellFormed = true := by
  unfold opcodeInstr at h
  split at h <;> cases h
  case h_3 | h_4 | h_5 => exact foldCountOk_foldPorts c
  all_goals rfl

theorem wellFormed_of_decode_legal {c : Command} {i : Instr} (h : decode c = .legal i) : i.wellFormed = true :=
  have ⟨_, hi, _⟩ := fields_of_decode_legal h
  wellFormed_of_opcodeInstr hi

/-- A fold of one to four operands has one answer for all states. -/
theorem respondFold_uniform (op : Word → Word → Word) {vs : List Word} (h : foldCountOk vs = true) :
    ∃ lo, ∀ s, respondFold op vs s = .next (respondWord lo s) := by
  cases hf : leftFold op vs with
  | some lo => exact ⟨lo, fun s => by simp [respondFold, hf]⟩
  | none =>
    rcases (leftFold_eq_none op vs).1 hf with rfl | hl
    · simp [foldCountOk] at h
    · simp [foldCountOk] at h; omega

/-- A well-formed command has one response, whatever state it runs in. -/
theorem exec_uniform {i : Instr} (h : i.wellFormed = true) :
    ∃ lo hi ninf, ∀ s, exec i s = .next (respond lo hi ninf s) := by
  have fold : ∀ {vs} op, foldCountOk vs = true →
      ∃ lo hi ninf, ∀ s, respondFold op vs s = .next (respond lo hi ninf s) :=
    fun op hf => (respondFold_uniform op hf).elim fun lo he => ⟨lo, 0, false, he⟩
  cases i with
  | or vs => exact fold (· ||| ·) h
  | and vs => exact fold (· &&& ·) h
  | xor vs => exact fold (· ^^^ ·) h
  | _ => exact ⟨_, _, _, fun _ => rfl⟩

/-- Every command, legal or not, has one response that every block accepting it shows (00_scope R3). -/
theorem outputs_of_accepts_uniform (c : Command) :
    ∃ o : Outputs, ∀ s, Accepts s c → ∃ t, step s = .next t ∧ outputPorts t = o := by
  cases hd : decode c with
  | illegal why => exact ⟨⟨0, 0, illegalStatus⟩, fun s ha => ⟨_, step_of_accepts_illegal ha hd, rfl⟩⟩
  | legal i =>
    obtain ⟨lo, hi, ninf, he⟩ := exec_uniform (wellFormed_of_decode_legal hd)
    exact ⟨⟨lo, hi, legalStatus ninf⟩, fun s ha => ⟨_, (step_of_accepts_legal ha hd).trans (he _), rfl⟩⟩

/-- Settles O20: the response that `outputs_of_accepts_uniform` gives is the one both blocks show. -/
theorem responseIsFunctionOfCommand : Obligations.ResponseIsFunctionOfCommand := by
  intro s s' c ha ha'
  obtain ⟨o, ho⟩ := outputs_of_accepts_uniform c
  obtain ⟨t, hs, ht⟩ := ho s ha
  obtain ⟨t', hs', ht'⟩ := ho s' ha'
  exact ⟨t, t', hs, hs', ht.trans ht'.symm⟩

/-! ### Bits a command does not read -/

/-- The command with every bit of its ports cleared that it does not read (30_encoding R66). -/
def maskUnread (c : Command) : Command :=
  ⟨c.cmd, c.opA &&& (readMasks c.cmd).1, c.opB &&& (readMasks c.cmd).2.1, c.opC &&& (readMasks c.cmd).2.2.1,
    c.opD &&& (readMasks c.cmd).2.2.2⟩

theorem maskUnread_eq_of_sameReadBits {c d : Command} (h : SameReadBits c d) : maskUnread c = maskUnread d := by
  obtain ⟨hcmd, ha, hb, hc, hd⟩ := h
  simp only [maskUnread, ha, hb, hc, hd]
  simp only [hcmd]

/-- Masking a port above its low `k` bits leaves the low `k` bits. -/
theorem extractLsb'_and_of_low_ones {k : Nat} (w : Word) {m : Word} (hm : m.extractLsb' 0 k = BitVec.allOnes k) :
    (w &&& m).extractLsb' 0 k = w.extractLsb' 0 k := by
  rw [BitVec.extractLsb'_and, hm, BitVec.and_allOnes]

@[simp] theorem and_fullMask (w : Word) : w &&& 0xFFFFFFFF#32 = w := BitVec.and_allOnes

@[simp] theorem lowByte_and_mask (w : Word) : lowByte (w &&& 0xFF#32) = lowByte w :=
  extractLsb'_and_of_low_ones w (by decide)

@[simp] theorem byteIndex_and_mask (w : Word) : byteIndex (w &&& 0x3#32) = byteIndex w :=
  congrArg BitVec.toNat (extractLsb'_and_of_low_ones w (by decide))

@[simp] theorem shiftAmount_and_mask (w : Word) : shiftAmount (w &&& 0x1F#32) = shiftAmount w :=
  congrArg BitVec.toNat (extractLsb'_and_of_low_ones w (by decide))

/-- A fold reads whole the ports that its `NM1` selects, and no other (30_encoding R63, R66). -/
theorem foldPorts_maskUnread {c : Command} (hr : rsvField c.cmd = 0#2)
    (hf : isFoldOp (opField c.cmd).toNat = true) : foldPorts (maskUnread c) = foldPorts c := by
  have masks : ∀ cmd : CmdWord, rsvField cmd = 0#2 → isFoldOp (opField cmd).toNat = true →
      (nm1Field cmd = 0#2 ∧ readMasks cmd = (0xFFFFFFFF#32, 0#32, 0#32, 0#32)) ∨
      (nm1Field cmd = 1#2 ∧ readMasks cmd = (0xFFFFFFFF#32, 0xFFFFFFFF#32, 0#32, 0#32)) ∨
      (nm1Field cmd = 2#2 ∧ readMasks cmd = (0xFFFFFFFF#32, 0xFFFFFFFF#32, 0xFFFFFFFF#32, 0#32)) ∨
      (nm1Field cmd = 3#2 ∧ readMasks cmd = (0xFFFFFFFF#32, 0xFFFFFFFF#32, 0xFFFFFFFF#32, 0xFFFFFFFF#32)) := by
    decide
  rcases masks c.cmd hr hf with ⟨hn, hm⟩ | ⟨hn, hm⟩ | ⟨hn, hm⟩ | ⟨hn, hm⟩ <;> simp [foldPorts, maskUnread, hn, hm]

theorem opcodeInstr_congr_of_fold {c d : Command} {op : Nat} (hf : isFoldOp op = true)
    (hp : foldPorts c = foldPorts d) : opcodeInstr c op = opcodeInstr d op := by
  have hop : op = 2 ∨ op = 3 ∨ op = 4 := by simpa [isFoldOp, or_assoc] using hf
  rcases hop with rfl | rfl | rfl <;> simp [opcodeInstr, hp]

theorem cmd_eq_opField {cmd : CmdWord} (hr : rsvField cmd = 0#2) (hn : nm1Field cmd = 0#2) :
    cmd = BitVec.ofNat 8 (opField cmd).toNat := by
  revert cmd; decide

/-- A command that is no fold means the same with its unread bits cleared (30_encoding R66). -/
theorem exec_opcodeInstr_maskUnread {c : Command} {op : Nat} (hcmd : c.cmd = BitVec.ofNat 8 op)
    (hf : isFoldOp op = false) :
    (opcodeInstr (maskUnread c) op).map exec = (opcodeInstr c op).map exec := by
  match op with
  | 0x0 => simp [opcodeInstr, maskUnread, readMasks, hcmd, funext_iff, exec, execPack]
  | 0x1 => simp [opcodeInstr, maskUnread, readMasks, hcmd, funext_iff, exec, execGetb]
  | 0x2 | 0x3 | 0x4 => cases hf
  | 0x6 => simp [opcodeInstr, maskUnread, readMasks, hcmd, funext_iff, exec, execShl]
  | 0x7 => simp [opcodeInstr, maskUnread, readMasks, hcmd, funext_iff, exec, execShr]
  | 0x8 => simp [opcodeInstr, maskUnread, readMasks, hcmd, funext_iff, exec, execRotl]
  | 0x9 => simp [opcodeInstr, maskUnread, readMasks, hcmd, funext_iff, exec, execRotr]
  -- these read each of their ports whole, so that masking leaves the instruction itself
  | 0x5 | 0xA | 0xB | 0xC | 0xD => simp [opcodeInstr, maskUnread, readMasks, hcmd]
  | _ + 14 => rfl

/-- A legal command with its unread bits cleared is a command of the same meaning. -/
theorem decode_maskUnread {c : Command} {i : Instr} (h : decode c = .legal i) :
    ∃ j, decode (maskUnread c) = .legal j ∧ exec j = exec i := by
  obtain ⟨hr, hi, hn⟩ := fields_of_decode_legal h
  have hmean : (opcodeInstr (maskUnread c) (opField c.cmd).toNat).map exec = some (exec i) := by
    cases hf : isFoldOp (opField c.cmd).toNat with
    | true => rw [opcodeInstr_congr_of_fold hf (foldPorts_maskUnread hr hf), hi]; rfl
    | false =>
      have hcmd := cmd_eq_opField hr (hn.resolve_left (by simp [hf]))
      rw [exec_opcodeInstr_maskUnread hcmd hf, hi]; rfl
  obtain ⟨j, hj, he⟩ := Option.map_eq_some_iff.1 hmean
  exact ⟨j, decode_legal hr hj hn, he⟩

theorem decode_maskUnread_illegal {c : Command} {why : IllegalReason} (h : decode c = .illegal why) :
    ∃ why', decode (maskUnread c) = .illegal why' := by
  cases hm : decode (maskUnread c) with
  | illegal why' => exact ⟨why', rfl⟩
  | legal j =>
    obtain ⟨i, hi⟩ := (decode_isLegal_iff c).2 ((decode_isLegal_iff (maskUnread c)).1 ⟨j, hm⟩)
    rw [h] at hi; cases hi

/-- Clearing the bits that a command does not read changes no step (00_scope R9). -/
theorem step_drive_maskUnread (s : State) (c : Command) :
    step (drive (commandSample (maskUnread c)) s) = step (drive (commandSample c) s) := by
  cases hw : s.wasReset with
  | false => rw [step_drive_commandSample_beforeReset _ hw, step_drive_commandSample_beforeReset _ hw]
  | true =>
    have hc := accepts_drive_commandSample c hw
    have hm := accepts_drive_commandSample (maskUnread c) hw
    cases hd : decode c with
    | illegal why =>
      obtain ⟨why', hd'⟩ := decode_maskUnread_illegal hd
      rw [step_of_accepts_illegal hc hd, step_of_accepts_illegal hm hd']; rfl
    | legal i =>
      obtain ⟨j, hd', he⟩ := decode_maskUnread hd
      rw [step_of_accepts_legal hc hd, step_of_accepts_legal hm hd', he]; rfl

/-- Settles O21: the two commands have one masked command in common, which has the step of either. -/
theorem unreadBitsHaveNoEffect : Obligations.UnreadBitsHaveNoEffect := by
  intro s c d h
  rw [← step_drive_maskUnread s c, maskUnread_eq_of_sameReadBits h, step_drive_maskUnread]

end Sys2Proof.Machine
end

section
/-! PROOFS of the family 10_state. What each kind of edge does to the registers (R21, R24, R25), what every command leaves in
the flags (R29), the values after reset (R31), and the invariant of R32. -/

namespace Sys2Proof.Machine

/-! ### Edges that execute no command -/

theorem step_of_rst {s : State} (h : (portsNow s).rst = true) : step s = .next (applyReset (consumeSample s)) := by
  simp [step, edgeEvent_reset h]

theorem step_of_idle {s : State} (h : (portsNow s).rst = false) (hv : (portsNow s).cmdValid = false) :
    step s = .next (consumeSample s) := by
  simp [step, edgeEvent_idle h hv]

theorem step_of_command_beforeReset {s : State} (h : (portsNow s).rst = false) (hv : (portsNow s).cmdValid = true)
    (hw : s.wasReset = false) : step s = .refused .commandBeforeReset := by
  simp [step, edgeEvent_beforeReset h hv hw]

theorem step_refused {s : State} {r : Refusal} (h : step s = .refused r) :
    s.wasReset = false ∧ r = .commandBeforeReset := by
  rcases step_cases s with ⟨-, hs⟩ | ⟨-, -, hs⟩ | ⟨-, -, hw, hs⟩ | ⟨-, -, -, ⟨_, -, hs⟩ | ⟨i, hd, hs⟩⟩ <;> rw [hs] at h
  · cases h
  · cases h
  · cases h
    exact ⟨hw, rfl⟩
  · cases h
  · obtain ⟨lo, hi, ninf, he⟩ := exec_completes (consumeSample s) (wellFormed_of_decode_legal hd)
    rw [he] at h
    cases h

@[simp] theorem rvalidBit_resetStatus : rvalidBit resetStatus = false := rfl
@[simp] theorem ninfBit_resetStatus : ninfBit resetStatus = false := rfl
@[simp] theorem illBit_resetStatus : illBit resetStatus = false := rfl

@[simp] theorem outputPorts_applyReset (s : State) : outputPorts (applyReset s) = ⟨0, 0, 0⟩ := rfl

theorem readOutputs_of_wasReset {s : State} (h : s.wasReset = true) : readOutputs s = .ok (outputPorts s) := by
  simp [readOutputs, h]

theorem readOutputs_beforeReset {s : State} (h : s.wasReset = false) : readOutputs s = .error .unresetRead := by
  simp [readOutputs, h]

/-! ### The response of a command that completes -/

/-- The three responses of 10_state R29: the filler with `NINF` for `LOG2` of 0 alone, two words for `MUL` alone, one word for
every other command. -/
theorem exec_next_cases {i : Instr} {s t : State} (h : exec i s = .next t) :
    (i = .log2 0 ∧ t = respond ninfFiller 0 true s) ∨
    ((∃ a b, i = .mul a b) ∧ ∃ lo hi, t = respond lo hi false s) ∨
    (i ≠ .log2 0 ∧ (∀ a b, i ≠ .mul a b) ∧ ∃ lo, t = respondWord lo s) := by
  cases i with
  | or vs => exact .inr (.inr ⟨nofun, nofun, respondFold_next h⟩)
  | and vs => exact .inr (.inr ⟨nofun, nofun, respondFold_next h⟩)
  | xor vs => exact .inr (.inr ⟨nofun, nofun, respondFold_next h⟩)
  | log2 v =>
    cases h
    by_cases hv : v = 0
    · exact .inl ⟨by rw [hv], by simp [hv, log2Ninf]⟩
    · have hn : log2Ninf v = false := by simpa [log2Ninf] using hv
      exact .inr (.inr ⟨by simpa using hv, nofun, _, by rw [hn]; rfl⟩)
  | mul a b =>
    cases h
    exact .inr (.inl ⟨⟨a, b, rfl⟩, _, _, rfl⟩)
  | _ =>
    cases h
    exact .inr (.inr ⟨nofun, nofun, _, rfl⟩)

/-- Settles O24: `exec_next_cases` leaves three responses, each an update of the result registers and `STATUS`. -/
theorem commandsChangeOnlyResultRegisters : Obligations.CommandsChangeOnlyResultRegisters := by
  intro i s t h
  rcases exec_next_cases h with ⟨rfl, rfl⟩ | ⟨⟨a, b, rfl⟩, lo, hi, rfl⟩ | ⟨-, -, lo, rfl⟩ <;> simp

theorem ninfBit_of_exec_next {i : Instr} {s t : State} (h : exec i s = .next t) :
    ninfBit t.status = true ↔ i = .log2 0 := by
  rcases exec_next_cases h with ⟨rfl, rfl⟩ | ⟨⟨a, b, rfl⟩, lo, hi, rfl⟩ | ⟨hne, -, lo, rfl⟩
  · simp
  · simp
  · simpa using hne

/-! ### The invariant of 10_state R32 -/

theorem inv_applyReset (s : State) : (applyReset s).Inv := by
  intro _
  rw [outputPorts_applyReset]
  decide

theorem inv_respondIllegal (cmd : CmdWord) (s : State) : (respondIllegal cmd s).Inv := by
  intro _
  simp [outputPorts]

/-- A response to a legal command meets the invariant, if it raises `NINF` only beside the filler. -/
theorem inv_respond {lo hi : Word} {ninf : Bool} (s : State) (h : ninf = true → lo = ninfFiller ∧ hi = 0) :
    (respond lo hi ninf s).Inv := by
  intro _
  simpa [IdleRegistersZero, IllegalRegistersZero, NegInfRegistersFiller, outputPorts, ninfFiller] using h

theorem inv_of_exec_next {i : Instr} {s t : State} (h : exec i s = .next t) : t.Inv := by
  rcases exec_next_cases h with ⟨-, rfl⟩ | ⟨-, lo, hi, rfl⟩ | ⟨-, -, lo, rfl⟩
  · exact inv_respond s fun _ => ⟨rfl, rfl⟩
  · exact inv_respond s nofun
  · exact inv_respond s nofun

/-- Settles O15: an idle edge keeps the registers, and every other edge that completes leaves registers that meet the
invariant whatever stood in them before. -/
theorem stepKeepsInvariant : Obligations.StepKeepsInvariant := by
  intro s t hinv h
  rcases step_cases s with ⟨-, hs⟩ | ⟨-, -, hs⟩ | ⟨-, -, -, hs⟩ | ⟨-, -, -, ⟨_, -, hs⟩ | ⟨i, -, hs⟩⟩ <;> rw [hs] at h
  · cases h
    exact inv_applyReset _
  · cases h
    exact hinv
  · cases h
  · cases h
    exact inv_respondIllegal _ _
  · exact inv_of_exec_next h

/-- Settles O14: `State.reset` is what a reset edge leaves. -/
theorem resetMeetsInvariant : Obligations.ResetMeetsInvariant :=
  ⟨inv_applyReset State.reset, rfl⟩

/-! ### The flags after an accepted command -/

/-- The quotients and remainders of 30_encoding R70 say when a command decodes. -/
theorem decode_isLegal_iff_legalNumber (c : Command) : (∃ i, decode c = .legal i) ↔ LegalNumber c.cmd := by
  have key : ∀ cmd : CmdWord, legalCmd cmd = true ↔ LegalNumber cmd := by decide
  rw [decode_isLegal_iff, key]

theorem decode_of_log2Word {c : Command} (h : c.cmd = 0x0C) : decode c = .legal (.log2 c.opA) :=
  decode_legal (by rw [h]; rfl) (by rw [h]; rfl) (.inr (by rw [h]; rfl))

theorem opcodeInstr_eq_log2 {c : Command} {op : Nat} {v : Word} (h : opcodeInstr c op = some (.log2 v)) :
    op = 0xC ∧ c.opA = v := by
  unfold opcodeInstr at h
  split at h <;> cases h
  exact ⟨rfl, rfl⟩

/-- `LOG2` has the one command word 0x0C (30_encoding R62). -/
theorem decode_eq_log2_iff (c : Command) (v : Word) : decode c = .legal (.log2 v) ↔ c.cmd = 0x0C ∧ c.opA = v := by
  constructor
  · intro h
    obtain ⟨hr, hi, hn⟩ := fields_of_decode_legal h
    obtain ⟨hop, hv⟩ := opcodeInstr_eq_log2 hi
    have hcmd := cmd_eq_opField hr (hn.resolve_left (by rw [hop]; decide))
    exact ⟨by rw [hcmd, hop]; rfl, hv⟩
  · rintro ⟨hcmd, rfl⟩
    exact decode_of_log2Word hcmd

/-- 10_state R29 for an accepted command. -/
theorem flags_of_accepts {s : State} {c : Command} (h : Accepts s c) :
    ∃ t, step s = .next t ∧ rvalidBit t.status = true ∧ (illBit t.status = true ↔ ¬ LegalNumber c.cmd) ∧
      (ninfBit t.status = true ↔ c.cmd = 0x0C ∧ c.opA = 0) := by
  rw [← decode_isLegal_iff_legalNumber, ← decode_eq_log2_iff]
  rcases step_of_accepts h with ⟨why, hd, hs⟩ | ⟨i, hd, hs⟩
  · exact ⟨_, hs, by simp [hd]⟩
  · obtain ⟨lo, hi, ninf, he⟩ := exec_completes (consumeSample s) (wellFormed_of_decode_legal hd)
    exact ⟨_, hs.trans he, by simp, by simp [hd], by simpa [hd] using ninfBit_of_exec_next he⟩

/-- Settles O18: `flags_of_accepts` for a command, the reset values for a reset edge. -/
theorem flagsAfterEachCommand : Obligations.FlagsAfterEachCommand :=
  ⟨fun _ _ => flags_of_accepts, fun _ h => ⟨_, step_of_rst h, rvalidBit_resetStatus, illBit_resetStatus, ninfBit_resetStatus⟩⟩

/-! ### The edges one by one -/

/-- Settles O7: `consumeSample` is the record update of the statement. -/
theorem stepRunsDecodedCommand : Obligations.StepRunsDecodedCommand :=
  fun _ _ _ => step_of_accepts_legal

/-- Settles O10: every command sets `RVALID`, so it shows on the ports of a block whose `RVALID` was 0. -/
theorem idleEdgeChangesNoRegister : Obligations.IdleEdgeChangesNoRegister := by
  refine ⟨fun s => step_of_idle, fun s c ha hv => ?_⟩
  obtain ⟨t, hs, ht, -, -⟩ := flags_of_accepts ha
  refine ⟨t, hs, fun ho => ?_⟩
  have hstatus : t.status = s.status := congrArg Outputs.resStatus ho
  simp [hstatus, hv] at ht

/-- Settles O12: each clause is the lemma about that read or edge; `powerUp` after a reset edge is `State.reset`. -/
theorem nothingKnownBeforeReset : Obligations.NothingKnownBeforeReset :=
  ⟨fun _ => readOutputs_beforeReset, fun _ => readOutputs_of_wasReset,
    fun _ hw hr hv => step_of_command_beforeReset hr hv hw, fun _ _ => step_refused,
    fun p ps hp => step_of_rst (s := powerUp (p :: ps)) hp⟩

/-- Settles O13: a reset edge leaves the reset values, and a block that was reset shows its registers. -/
theorem registersAfterReset : Obligations.RegistersAfterReset :=
  ⟨rfl, rfl, fun _ h => ⟨_, step_of_rst h, rfl, rfl, rvalidBit_resetStatus, ninfBit_resetStatus, illBit_resetStatus,
    readOutputs_of_wasReset rfl⟩⟩

end Sys2Proof.Machine
end

section
/-! PROOFS of the family 20_memory. What every step does to the samples still to come, that a block once reset runs through any
of them, and that the ports keep the response of the last command (R48). -/

namespace Sys2Proof.Machine

/-! ### What every step keeps -/

/-- An edge uses up its own sample and no other (10_state R21), and never undoes a reset. -/
theorem step_next_frame {s t : State} (h : step s = .next t) :
    t.inputs = s.inputs.tail ∧ (s.wasReset = true → t.wasReset = true) := by
  rcases step_cases s with ⟨-, hs⟩ | ⟨-, -, hs⟩ | ⟨-, -, -, hs⟩ | ⟨-, -, -, ⟨_, -, hs⟩ | ⟨i, -, hs⟩⟩ <;> rw [hs] at h
  · cases h
    simp
  · cases h
    simp
  · cases h
  · cases h
    simp
  · obtain ⟨lo, hi, ninf, rfl⟩ := exec_next h
    simp

theorem step_completes_of_wasReset {s : State} (hw : s.wasReset = true) : ∃ t, step s = .next t := by
  rcases step_cases s with ⟨-, hs⟩ | ⟨-, -, hs⟩ | ⟨-, -, hw', -⟩ | ⟨hr, hv, -, -⟩
  · exact ⟨_, hs⟩
  · exact ⟨_, hs⟩
  · simp [hw] at hw'
  · obtain ⟨t, hs, -⟩ := flags_of_accepts ⟨hw, hr, hv, rfl⟩
    exact ⟨t, hs⟩

/-! ### Runs -/

theorem run_succ_of_step {s t : State} (k : Nat) (h : step s = .next t) :
    Host.Core.run Sys2Proof.core (k + 1) s = Host.Core.run Sys2Proof.core k t := by
  have h' : Sys2Proof.core.step s = .next t := h
  simp [Host.Core.run, h']

/-- Two runs, one after the other, are one run. -/
theorem run_add_of_run {m : Nat} {s t : State} (n : Nat) (h : Host.Core.run Sys2Proof.core m s = .next t) :
    Host.Core.run Sys2Proof.core (m + n) s = Host.Core.run Sys2Proof.core n t := by
  induction m generalizing s with
  | zero =>
    cases h
    rw [Nat.zero_add]
  | succ m ih =>
    cases hs : Sys2Proof.core.step s with
    | next u =>
      rw [run_succ_of_step m hs] at h
      rw [Nat.succ_add, run_succ_of_step _ hs, ih h]
    | fault r | refused r => simp [Host.Core.run, hs] at h

/-- A block once reset takes any number of edges, whatever stands on its ports there. -/
theorem run_completes_of_wasReset (k : Nat) {s : State} (hw : s.wasReset = true) :
    ∃ t, Host.Core.run Sys2Proof.core k s = .next t ∧ t.wasReset = true ∧ t.inputs = s.inputs.drop k := by
  induction k generalizing s with
  | zero => exact ⟨s, rfl, hw, rfl⟩
  | succ k ih =>
    obtain ⟨u, hs⟩ := step_completes_of_wasReset hw
    obtain ⟨hin, hkeep⟩ := step_next_frame hs
    obtain ⟨t, hr, hwt, hint⟩ := ih (hkeep hw)
    exact ⟨t, (run_succ_of_step k hs).trans hr, hwt, by rw [hint, hin, List.drop_tail]⟩

/-- A run of idle edges changes no register (10_state R25). -/
theorem run_of_idle_samples {idles rest : List PortSample} (hidle : ∀ p ∈ idles, p.rst = false ∧ p.cmdValid = false)
    {s : State} (hin : s.inputs = idles ++ rest) :
    Host.Core.run Sys2Proof.core idles.length s = .next { s with inputs := rest } := by
  induction idles generalizing s with
  | nil =>
    obtain rfl : s.inputs = rest := hin
    rfl
  | cons p ps ih =>
    obtain ⟨⟨hr, hv⟩, hps⟩ := List.forall_mem_cons.1 hidle
    have hp : portsNow s = p := by simp [portsNow, hin]
    have hs : step s = .next (consumeSample s) := step_of_idle (hp ▸ hr) (hp ▸ hv)
    rw [List.length_cons, run_succ_of_step _ hs, ih hps (by simp [hin])]
    rfl

/-! ### The response of the last command stands on the ports -/

theorem accepts_of_inputs {s : State} {c : Command} {ps : List PortSample} (hw : s.wasReset = true)
    (hin : s.inputs = commandSample c :: ps) : Accepts s c := by
  have hp : portsNow s = commandSample c := by simp [portsNow, hin]
  exact ⟨hw, congrArg PortSample.rst hp, congrArg PortSample.cmdValid hp, congrArg PortSample.command hp⟩

/-- Settles O22: the block runs through the samples before and is still reset, so it accepts the command and answers it as a
block just reset does, and the idle edges leave that answer. -/
theorem portsShowLastResponse : Obligations.PortsShowLastResponse := by
  intro s before idles rest c hw hidle hin
  obtain ⟨a, hbefore, hwa, hina⟩ := run_completes_of_wasReset before.length hw
  rw [hin, List.drop_left] at hina
  have ha := accepts_of_inputs hwa hina
  obtain ⟨o, ho⟩ := outputs_of_accepts_uniform c
  obtain ⟨b, hb, hob⟩ := ho a ha
  obtain ⟨u, hu, hou⟩ := ho _ (accepts_drive_commandSample (s := State.reset) c rfl)
  have hinb : b.inputs = idles ++ rest := by rw [(step_next_frame hb).1, hina, List.tail_cons]
  refine ⟨{ b with inputs := rest }, u, ?_, hu, hob.trans hou.symm, rfl⟩
  calc Host.Core.run Sys2Proof.core (before.length + 1 + idles.length) s
      = Host.Core.run Sys2Proof.core (idles.length + 1) a := by
        rw [Nat.add_assoc, Nat.add_comm 1, run_add_of_run _ hbefore]
    _ = Host.Core.run Sys2Proof.core idles.length b := run_succ_of_step _ hb
    _ = .next { b with inputs := rest } := run_of_idle_samples hidle hinb

end Sys2Proof.Machine
end

section
/-! PROOFS of the family 30_encoding. The decoder as a function of the command word (R61, R67, R70), decoder and encoder against
each other (R60 to R66), and what the host makes of literals, references, `COPY`, long folds and `HEX` (R75 to R78, R105). -/

namespace Sys2Proof.Machine

/-! ### What the command word alone decides -/

/-- Why a command word is illegal, if it is (30_encoding R70, R71). -/
def illegalReason (cmd : CmdWord) : Option IllegalReason :=
  if rsvField cmd ≠ 0#2 then some .reservedBits
  else if 13 < (opField cmd).toNat then some .reservedOpcode
  else if isFoldOp (opField cmd).toNat = false ∧ nm1Field cmd ≠ 0#2 then some .operandCount
  else none

/-- The opcode table has a row for each opcode up to 0xD and no other, and its instruction carries that opcode. -/
theorem opcodeInstr_map_opcodeOf (c : Command) (op : Nat) :
    (opcodeInstr c op).map opcodeOf = if 13 < op then none else some op := by
  match op with
  | 0x0 | 0x1 | 0x2 | 0x3 | 0x4 | 0x5 | 0x6 | 0x7 | 0x8 | 0x9 | 0xA | 0xB | 0xC | 0xD => rfl
  | n + 14 => simp [opcodeInstr]

theorem opcodeInstr_eq_none {c : Command} {op : Nat} (h : 13 < op) : opcodeInstr c op = none := by
  simpa [h] using opcodeInstr_map_opcodeOf c op

theorem exists_opcodeInstr {c : Command} {op : Nat} (h : ¬ 13 < op) :
    ∃ i, opcodeInstr c op = some i ∧ opcodeOf i = op := by
  simpa [h] using opcodeInstr_map_opcodeOf c op

theorem decode_of_illegalReason {c : Command} {why : IllegalReason} (h : illegalReason c.cmd = some why) :
    decode c = .illegal why := by
  unfold illegalReason at h
  split at h
  · next hr => cases h; simp [decode, hr]
  · next hr =>
    split at h
    · next ho => cases h; simp [decode, hr, opcodeInstr_eq_none ho]
    · next ho =>
      obtain ⟨i, hi, -⟩ := exists_opcodeInstr (c := c) ho
      split at h
      · next hn => cases h; simp [decode, hr, hi, hn]
      · cases h

/-- A legal word decodes to the row of its opcode, whatever stands on the four ports. -/
theorem decode_of_legalWord {cmd : CmdWord} {a b c d : Word} {i : Instr} (h : illegalReason cmd = none)
    (hi : opcodeInstr ⟨cmd, a, b, c, d⟩ (opField cmd).toNat = some i) : decode ⟨cmd, a, b, c, d⟩ = .legal i := by
  have fields : ∀ cmd, illegalReason cmd = none →
      rsvField cmd = 0#2 ∧ (isFoldOp (opField cmd).toNat = true ∨ nm1Field cmd = 0#2) := by
    decide
  obtain ⟨hr, hn⟩ := fields cmd h
  exact decode_legal hr hi hn

theorem decode_of_illegalReason_none {c : Command} (h : illegalReason c.cmd = none) :
    ∃ i, decode c = .legal i ∧ opcodeOf i = (opField c.cmd).toNat := by
  have row : ∀ cmd, illegalReason cmd = none → ¬ 13 < (opField cmd).toNat := by decide
  obtain ⟨i, hi, hop⟩ := exists_opcodeInstr (row c.cmd h)
  exact ⟨i, decode_of_legalWord h hi, hop⟩

theorem illegalReason_eq_none_iff_legalNumber (cmd : CmdWord) : illegalReason cmd = none ↔ LegalNumber cmd := by
  revert cmd; decide

theorem decode_illegal_of_not_legalNumber {c : Command} (h : ¬ LegalNumber c.cmd) : ∃ why, decode c = .illegal why := by
  cases hw : illegalReason c.cmd with
  | none => exact absurd ((illegalReason_eq_none_iff_legalNumber _).1 hw) h
  | some why => exact ⟨why, decode_of_illegalReason hw⟩

theorem opcodeOf_of_decode_legal {c : Command} {i : Instr} (h : decode c = .legal i) :
    opcodeOf i = (opField c.cmd).toNat := by
  obtain ⟨j, hj, hop⟩ := decode_of_illegalReason_none
    ((illegalReason_eq_none_iff_legalNumber _).2 ((decode_isLegal_iff_legalNumber c).1 ⟨i, h⟩))
  rw [h] at hj
  cases hj
  exact hop

theorem exists_decode_with_opcode_iff (c : Command) (op : Nat) :
    (∃ i, decode c = .legal i ∧ opcodeOf i = op) ↔ LegalNumber c.cmd ∧ (opField c.cmd).toNat = op := by
  rw [← decode_isLegal_iff_legalNumber]
  constructor
  · rintro ⟨i, hd, rfl⟩
    exact ⟨⟨i, hd⟩, (opcodeOf_of_decode_legal hd).symm⟩
  · rintro ⟨⟨i, hd⟩, rfl⟩
    exact ⟨i, hd, opcodeOf_of_decode_legal hd⟩

/-- Settles O6: `illegalReason` and `OP` are functions of the command word, which the two commands share. -/
theorem operationDependsOnCmdAlone : Obligations.OperationDependsOnCmdAlone := by
  intro c d hcmd
  cases hw : illegalReason c.cmd with
  | some why => exact .inl ⟨why, decode_of_illegalReason hw, decode_of_illegalReason (hcmd ▸ hw)⟩
  | none =>
    obtain ⟨i, hi, hoi⟩ := decode_of_illegalReason_none hw
    obtain ⟨j, hj, hoj⟩ := decode_of_illegalReason_none (c := d) (hcmd ▸ hw)
    exact .inr ⟨i, j, hi, hj, by rw [hoi, hoj, hcmd]⟩

/-- Settles O8: the predicate says when the command decodes, and `OP` is the number `CMD` modulo 16. -/
theorem legalityDecidesDispatch : Obligations.LegalityDecidesDispatch := by
  intro s c ha
  refine ⟨fun hl => ?_, fun hl => ?_⟩
  · obtain ⟨i, hd, hop⟩ := (exists_decode_with_opcode_iff c _).2 ⟨hl, rfl⟩
    exact ⟨i, hd, by simpa [opField] using hop, step_of_accepts_legal ha hd⟩
  · obtain ⟨why, hd⟩ := decode_illegal_of_not_legalNumber hl
    exact ⟨_, step_of_accepts_illegal ha hd, rfl⟩

/-- Settles O5: a row is met by the legal words of its opcode, which a check of the 256 words finds under the row's mask. -/
theorem tableRowsMatchUnderMask : Obligations.TableRowsMatchUnderMask := by
  have fold : ∀ cmd : CmdWord,
      (LegalNumber cmd ∧ (opField cmd).toNat = 0x2 ↔ cmd &&& 0xCF = 0x02) ∧
      (LegalNumber cmd ∧ (opField cmd).toNat = 0x3 ↔ cmd &&& 0xCF = 0x03) ∧
      (LegalNumber cmd ∧ (opField cmd).toNat = 0x4 ↔ cmd &&& 0xCF = 0x04) := by
    decide
  have plain : ∀ cmd : CmdWord, isFoldOp (opField cmd).toNat = false → LegalNumber cmd →
      (opField cmd).toNat ≤ 0xD ∧ cmd.toNat = (opField cmd).toNat := by
    decide
  have small : ∀ cmd : CmdWord, cmd.toNat ≤ 0xD → LegalNumber cmd ∧ (opField cmd).toNat = cmd.toNat := by
    decide
  intro c
  simp only [exists_decode_with_opcode_iff]
  obtain ⟨hor, hand, hxor⟩ := fold c.cmd
  refine ⟨hor, hand, hxor, fun op h2 h3 h4 => ⟨?_, ?_⟩⟩
  · rintro ⟨hl, rfl⟩
    exact plain c.cmd (by simp [isFoldOp, h2, h3, h4]) hl
  · rintro ⟨hle, rfl⟩
    exact small c.cmd hle

/-! ### The map of command words -/

/-- Settles O1: each word of the map is legal and has its opcode's row; a check of the 256 words finds no other legal one. -/
theorem commandWordMapIsComplete : Obligations.CommandWordMapIsComplete := by
  have listed : ∀ cmd : CmdWord, LegalNumber cmd →
      cmd ∈ ([0x00, 0x01, 0x02, 0x12, 0x22, 0x32, 0x03, 0x13, 0x23, 0x33, 0x04, 0x14, 0x24, 0x34] : List CmdWord) ++
        [0x05, 0x06, 0x07, 0x08, 0x09, 0x0A, 0x0B, 0x0C, 0x0D] := by
    decide
  refine ⟨fun a b c d => ?_, fun c hc => decode_illegal_of_not_legalNumber fun hl => hc (listed c.cmd hl)⟩
  refine ⟨?_, ?_, ⟨?_, ?_, ?_, ?_⟩, ⟨?_, ?_, ?_, ?_⟩, ⟨?_, ?_, ?_, ?_⟩, ?_, ?_, ?_, ?_, ?_, ?_, ?_, ?_, ?_⟩ <;>
    exact decode_of_legalWord rfl (by simp [opcodeInstr, opField, foldPorts, nm1Field])

/-- Settles O2: the fields of each word give its command, or the reason why it is illegal. -/
theorem writtenOutWordsDecode : Obligations.WrittenOutWordsDecode := by
  refine ⟨?_, ?_, ?_, ?_, ?_, ?_, decode_of_illegalReason rfl, decode_of_illegalReason rfl,
    decode_of_illegalReason rfl⟩ <;>
    exact decode_of_legalWord rfl rfl

/-! ### Decoder and encoder -/

/-- The ports that a fold of one to four operands reads are its operands (30_encoding R63). -/
theorem foldPorts_foldCommand (op : BitVec 4) {vs : List Word} (h : foldCountOk vs = true) :
    foldPorts (foldCommand op vs) = vs := by
  match vs with
  | [] => cases h
  | [_] | [_, _] | [_, _, _] | [_, _, _, _] => simp [foldPorts, foldCommand]
  | _ :: _ :: _ :: _ :: _ :: _ => simp [foldCountOk] at h; omega

theorem decode_foldCommand {op : BitVec 4} {vs : List Word} {i : Instr} (hf : isFoldOp op.toNat = true)
    (hi : opcodeInstr (foldCommand op vs) op.toNat = some i) : decode (foldCommand op vs) = .legal i :=
  decode_legal (rsvField_cmdOf ..) (by simpa [foldCommand] using hi) (.inl (by simpa [foldCommand] using hf))

theorem decode_encode {i : Instr} (h : i.wellFormed = true) : decode (encode i) = .legal i := by
  cases i with
  | or vs => exact decode_foldCommand rfl (congrArg (some ∘ Instr.or) (foldPorts_foldCommand 0x2#4 h))
  | and vs => exact decode_foldCommand rfl (congrArg (some ∘ Instr.and) (foldPorts_foldCommand 0x3#4 h))
  | xor vs => exact decode_foldCommand rfl (congrArg (some ∘ Instr.xor) (foldPorts_foldCommand 0x4#4 h))
  | _ => exact decode_of_legalWord rfl rfl

/-- Settles O3: the encoder writes the opcode's row, and a fold's operands on exactly the ports that its `NM1` selects. -/
theorem decodeOfEncodeIsIdentity : Obligations.DecodeOfEncodeIsIdentity := fun _ => decode_encode

/-- The mask of the port number `k` in a fold with this `NM1`: whole, or not read (30_encoding R63, R66). -/
def foldPortMask (nm1 : BitVec 2) (k : Nat) : Word := if k ≤ nm1.toNat then 0xFFFFFFFF else 0

theorem readMasks_of_foldWord {op : BitVec 4} (nm1 : BitVec 2) (hf : isFoldOp op.toNat = true) :
    readMasks (cmdOf op nm1) =
      (foldPortMask nm1 0, foldPortMask nm1 1, foldPortMask nm1 2, foldPortMask nm1 3) := by
  revert op nm1; decide

/-- Encoding the operands of a fold word drives the ports it reads as they were. -/
theorem sameReadBits_foldCommand {c : Command} {op : BitVec 4} {nm1 : BitVec 2} (hcmd : c.cmd = cmdOf op nm1)
    (hf : isFoldOp op.toNat = true) : SameReadBits c (foldCommand op (foldPorts c)) := by
  have hm := readMasks_of_foldWord nm1 hf
  have hn : nm1 = 0#2 ∨ nm1 = 1#2 ∨ nm1 = 2#2 ∨ nm1 = 3#2 := by clear hm hcmd; revert nm1; decide
  rcases hn with rfl | rfl | rfl | rfl <;>
    simp [SameReadBits, hcmd, hm, foldPortMask, foldCommand, foldPorts]

/-- Encoding the instruction of a word that is no fold drives the ports it reads as they were. -/
theorem sameReadBits_encode_of_not_fold {c : Command} {op : Nat} {i : Instr} (hcmd : c.cmd = BitVec.ofNat 8 op)
    (hf : isFoldOp op = false) (hi : opcodeInstr c op = some i) : SameReadBits c (encode i) := by
  match op with
  | 0x2 | 0x3 | 0x4 => cases hf
  | 0x0 | 0x1 | 0x5 | 0x6 | 0x7 | 0x8 | 0x9 | 0xA | 0xB | 0xC | 0xD =>
    cases hi
    simp [SameReadBits, encode, readMasks, hcmd, cmdOf]
  | _ + 14 => cases hi

theorem sameReadBits_encode_of_decode {c : Command} {i : Instr} (h : decode c = .legal i) :
    SameReadBits c (encode i) := by
  obtain ⟨hr, hi, hn⟩ := fields_of_decode_legal h
  cases hf : isFoldOp (opField c.cmd).toNat with
  | false => exact sameReadBits_encode_of_not_fold (cmd_eq_opField hr (hn.resolve_left (by simp [hf]))) hf hi
  | true =>
    have hop : ∀ op : BitVec 4, isFoldOp op.toNat = true → op = 2#4 ∨ op = 3#4 ∨ op = 4#4 := by decide
    have hs := sameReadBits_foldCommand (cmdOf_fields c.cmd hr).symm hf
    rcases hop _ hf with ho | ho | ho <;> rw [ho] at hi hs <;> cases hi <;> exact hs

/-- Settles O4: a fold keeps the ports that its `NM1` selects, any other command the ports of its format. -/
theorem encodeOfDecodeKeepsReadBits : Obligations.EncodeOfDecodeKeepsReadBits := fun _ _ h =>
  ⟨wellFormed_of_decode_legal h, sameReadBits_encode_of_decode h⟩

/-! ### Folds that no command word encodes -/

theorem foldCountOk_eq_false_iff (vs : List Word) : foldCountOk vs = false ↔ vs = [] ∨ 4 < vs.length := by
  cases vs <;> simp [foldCountOk]

theorem respondFold_refused {op : Word → Word → Word} {vs : List Word} (s : State) (h : vs = [] ∨ 4 < vs.length) :
    respondFold op vs s = .refused .foldOperandCount := by
  simp [respondFold, (leftFold_eq_none op vs).2 h]

theorem decode_ne_of_not_wellFormed {i : Instr} (h : i.wellFormed = false) (c : Command) : decode c ≠ .legal i := by
  intro hd
  simp [wellFormed_of_decode_legal hd] at h

/-- Settles O31: the three folds share `respondFold`, and the decoder makes only well-formed terms. -/
theorem foldWithoutCommandRefused : Obligations.FoldWithoutCommandRefused := by
  intro vs s h
  have hwf := (foldCountOk_eq_false_iff vs).2 h
  exact ⟨respondFold_refused s h, respondFold_refused s h, respondFold_refused s h, fun c =>
    ⟨decode_ne_of_not_wellFormed (i := .or vs) hwf c, decode_ne_of_not_wellFormed (i := .and vs) hwf c,
      decode_ne_of_not_wellFormed (i := .xor vs) hwf c⟩⟩

/-! ### Literals and references -/

theorem operandWords_eq_none_of_mem {history : List (Word × Word)} {x : ListingOperand} {ops : List ListingOperand}
    (hx : operandWord history x = none) (hmem : x ∈ ops) : operandWords history ops = none := by
  induction ops with
  | nil => cases hmem
  | cons y ys ih =>
    rcases List.mem_cons.1 hmem with rfl | htail
    · simp [operandWords, hx]
    · simp [operandWords, ih htail]

theorem naturalOf_finite_eq_some_iff (q : Rat) (n : Nat) : naturalOf (.finite q) = some n ↔ q = n := by
  constructor
  · intro h
    simp only [naturalOf] at h
    split at h
    · next hq =>
      obtain ⟨hden, hnum⟩ := hq
      cases h
      rw [← Int.cast_natCast, Int.toNat_of_nonneg hnum, Rat.coe_int_num_of_den_eq_one hden]
    · cases h
  · rintro rfl
    simp [naturalOf]

theorem hexRequest_isSome_iff (x y : HostNumber) :
    (hexRequest x y).isSome = true ↔ (∃ n, naturalOf x = some n ∧ n < 2 ^ 32) ∧ ∃ k, naturalOf y = some k := by
  cases hx : naturalOf x <;> cases hy : naturalOf y <;> simp [hexRequest, hx, hy]

/-- Settles O49: a non-finite literal has no word, and `naturalOf` answers on exactly the non-negative integers. -/
theorem hostRefusesWhatHasNoValue : Obligations.HostRefusesWhatHasNoValue := by
  refine ⟨fun history ops => operandWords_eq_none_of_mem rfl, fun x => ⟨rfl, ?_⟩, fun v m => ?_⟩
  · unfold hexRequest
    cases naturalOf x <;> rfl
  · simp only [hexRequest_isSome_iff, naturalOf_finite_eq_some_iff]

/-- Settles O51: `@(k+1)` is the entry `k` of the history, and past its end the history has no entry. -/
theorem referencesLookBack : Obligations.ReferencesLookBack := by
  intro history k
  refine ⟨fun h => by simp [operandWord, h], ?_⟩
  rintro (rfl | h)
  · exact ⟨rfl, rfl⟩
  · have hnone : history[k - 1]? = none := List.getElem?_eq_none (by omega)
    simp [operandWord, hnone]

/-- A word written as a literal. -/
def wordLiteral (w : Word) : ListingOperand := .number (.finite w.toNat)

@[simp] theorem operandWord_wordLiteral (history : List (Word × Word)) (w : Word) :
    operandWord history (wordLiteral w) = some w := by
  simp [operandWord, wordLiteral, tou32, tou32Finite, truncate]

theorem operandWords_wordLiterals (history : List (Word × Word)) (ws : List Word) :
    operandWords history (ws.map wordLiteral) = some ws := by
  induction ws with
  | nil => rfl
  | cons w ws ih => simp [operandWords, ih]

/-- A reference to the last command so far is its `RES_LO`, which the command after it can feed in on `A`. -/
theorem operandWords_resLo_last (earlier : List (Word × Word)) (lo hi : Word) (ws : List Word) :
    operandWords (earlier ++ [(lo, hi)]) (.resLo (earlier.length + 1) :: ws.map wordLiteral) = some (lo :: ws) := by
  simp [operandWords, operandWord, operandWords_wordLiterals]

/-! ### A run of commands -/

theorem edgeWith_resetSample (s : State) : edgeWith resetSample s = some (applyReset (consumeSample s)) := rfl

/-- The encoded command decodes to its instruction, so the edge that presents it runs the instruction. -/
theorem edgeWith_encode {i : Instr} {s t : State} (hw : s.wasReset = true) (hi : i.wellFormed = true)
    (h : exec i (consumeSample s) = .next t) : edgeWith (commandSample (encode i)) s = some t := by
  have hs := step_of_accepts_legal (accepts_drive_commandSample (encode i) hw) (decode_encode hi)
  rw [consumeSample_drive, h] at hs
  simp [edgeWith, hs]

/-- The mnemonic `m` is that of the fold with the operator `op` (42_logic R120). -/
def IsFoldOf (m : Mnemonic) (op : Word → Word → Word) : Prop :=
  m.isFold = true ∧ ∀ vs, foldCountOk vs = true →
    ∃ i, instrOf m vs = some i ∧ i.wellFormed = true ∧ ∀ s, exec i s = respondFold op vs s

theorem isFoldOf_or : IsFoldOf .or (· ||| ·) :=
  ⟨rfl, fun vs h => ⟨.or vs, by simp [instrOf, h], h, fun _ => rfl⟩⟩

theorem isFoldOf_and : IsFoldOf .and (· &&& ·) :=
  ⟨rfl, fun vs h => ⟨.and vs, by simp [instrOf, h], h, fun _ => rfl⟩⟩

theorem isFoldOf_xor : IsFoldOf .xor (· ^^^ ·) :=
  ⟨rfl, fun vs h => ⟨.xor vs, by simp [instrOf, h], h, fun _ => rfl⟩⟩

/-- A fold command of one to four operands leaves their left fold in `RES_LO` and in the history. -/
theorem runCommands_fold {m : Mnemonic} {op : Word → Word → Word} (hm : IsFoldOf m op) {s : State}
    {history : List (Word × Word)} {ops : List ListingOperand} {v : Word} {vs : List Word} (hw : s.wasReset = true)
    (hops : operandWords history ops = some (v :: vs)) (hlen : vs.length ≤ 3) (ls : List ListingLine) :
    runCommands s history (⟨m, none, ops⟩ :: ls) =
      runCommands (respondWord (vs.foldl op v) (consumeSample s)) (history ++ [(vs.foldl op v, 0)]) ls := by
  obtain ⟨-, hinstr⟩ := hm
  obtain ⟨i, hi, hwf, hexec⟩ := hinstr (v :: vs) (by simp [foldCountOk]; omega)
  have hfold : exec i (consumeSample s) = .next (respondWord (vs.foldl op v) (consumeSample s)) := by
    simp [hexec, respondFold, leftFold_cons op v vs hlen]
  simp [runCommands, hops, hi, edgeWith_encode hw hwf hfold]

theorem runListing_eq {s : State} {ls cs : List ListingLine} (h : expandListing 0 ls = some cs) :
    runListing s ls = runCommands (applyReset (consumeSample s)) [] cs := by
  simp [runListing, h, edgeWith_resetSample]

/-! ### `COPY` -/

/-- Settles O50: `COPY` expands to the fold `OR` of one operand, whose left fold is that operand. -/
theorem copyLoadsWord : Obligations.CopyLoadsWord := by
  intro v s done
  refine ⟨rfl, by simp [encode, foldCommand, cmdOf], respondWord v (consumeSample (applyReset (consumeSample s))), ?_, rfl⟩
  rw [runListing_eq rfl]
  exact runCommands_fold isFoldOf_or rfl (operandWords_wordLiterals [] [v]) (by simp) []

/-! ### Long folds -/

/-- The chain of a long fold folds its operands onto the last result, three a command (30_encoding R77). -/
theorem runCommands_foldChain {m : Mnemonic} {op : Word → Word → Word} (hm : IsFoldOf m op) (ws : List Word)
    {s : State} (earlier : List (Word × Word)) (hi : Word) (hw : s.wasReset = true) :
    ∃ t history,
      runCommands s (earlier ++ [(s.resLo, hi)]) (foldChain m (earlier.length + 1) (ws.map wordLiteral)) =
        some (t, history) ∧
      history.length = earlier.length + 1 + (ws.length + 2) / 3 ∧ t.resLo = ws.foldl op s.resLo := by
  match ws with
  | [] => exact ⟨s, _, rfl, by simp, rfl⟩
  | [x] =>
    exact ⟨_, _, runCommands_fold hm hw (operandWords_resLo_last earlier s.resLo hi [x]) (by simp) [],
      by simp, rfl⟩
  | [x, y] =>
    exact ⟨_, _, runCommands_fold hm hw (operandWords_resLo_last earlier s.resLo hi [x, y]) (by simp) [],
      by simp, rfl⟩
  | x :: y :: z :: rest =>
    have hfirst := runCommands_fold hm hw (operandWords_resLo_last earlier s.resLo hi [x, y, z]) (by simp)
      (foldChain m (earlier.length + 2) (rest.map wordLiteral))
    obtain ⟨t, history, hrun, hlen, hlo⟩ := runCommands_foldChain hm rest (earlier ++ [(s.resLo, hi)]) 0
      (s := respondWord ([x, y, z].foldl op s.resLo) (consumeSample s)) hw
    rw [List.length_append] at hrun
    refine ⟨t, history, hfirst.trans hrun, ?_, hlo⟩
    simp only [List.length_cons, List.length_append, List.length_nil] at hlen ⊢
    omega

theorem expandListing_long_fold {m : Mnemonic} (hm : m.isFold = true) (a b c d : ListingOperand)
    (rest : List ListingOperand) :
    expandListing 0 [⟨m, none, a :: b :: c :: d :: rest⟩] = some (⟨m, none, [a, b, c, d]⟩ :: foldChain m 1 rest) := by
  simp [expandListing, expandLine, suffixOk, hm, expandFold]

theorem runListing_empty_fold {m : Mnemonic} (hm : m.isFold = true) (s : State) :
    runListing s [⟨m, none, []⟩] = none := by
  simp [runListing, expandListing, expandLine, suffixOk, hm, expandFold]

theorem runListing_long_fold {m : Mnemonic} {op : Word → Word → Word} (hm : IsFoldOf m op) (v : Word)
    {vs : List Word} (s : State) (h : 4 ≤ vs.length) :
    ∃ t history, runListing s [⟨m, none, (v :: vs).map wordLiteral⟩] = some (t, history) ∧
      history.length = 1 + (vs.length + 1 - 4 + 2) / 3 ∧ t.resLo = vs.foldl op v := by
  match vs with
  | [] | [_] | [_, _] => simp at h
  | a :: b :: c :: rest =>
    have hfirst := runCommands_fold hm (s := applyReset (consumeSample s)) rfl
      (operandWords_wordLiterals [] [v, a, b, c]) (by simp) (foldChain m 1 (rest.map wordLiteral))
    obtain ⟨t, history, hrun, hlen, hlo⟩ := runCommands_foldChain hm rest [] 0
      (s := respondWord ([a, b, c].foldl op v) (consumeSample (applyReset (consumeSample s)))) rfl
    refine ⟨t, history, ?_, by simpa using hlen, hlo⟩
    rw [List.map_cons, List.map_cons, List.map_cons, List.map_cons, runListing_eq (expandListing_long_fold hm.1 ..)]
    exact hfirst.trans hrun

/-- Settles O52: the first command folds four operands and `runCommands_foldChain` the others, for each of the operators. -/
theorem longFoldIsLeftFold : Obligations.LongFoldIsLeftFold :=
  ⟨fun v _ s h => ⟨runListing_long_fold isFoldOf_or v s h, runListing_long_fold isFoldOf_and v s h,
      runListing_long_fold isFoldOf_xor v s h⟩,
    fun s => ⟨runListing_empty_fold rfl s, runListing_empty_fold rfl s, runListing_empty_fold rfl s⟩⟩

end Sys2Proof.Machine
end

section
/-! PROOFS of the family 41_bytes. What `PACK` and `GETB` answer as numbers (R101, R102) and that they are inverse (R106), and
the host-side conversions `TOU32`, `HIPART` (R103, R104) and `HEX` (R105). -/

namespace Sys2Proof.Machine

/-! ### `PACK` and `GETB` -/

theorem toNat_append_byte {n : Nat} (x : BitVec n) (b : Byte) : (x ++ b).toNat = x.toNat * 2 ^ 8 + b.toNat := by
  rw [BitVec.toNat_append, ← Nat.shiftLeft_add_eq_or_of_lt b.isLt, Nat.shiftLeft_eq]

theorem packBytes_toNat (b0 b1 b2 b3 : Byte) :
    (packBytes b0 b1 b2 b3).toNat = b0.toNat * 2 ^ 24 + b1.toNat * 2 ^ 16 + b2.toNat * 2 ^ 8 + b3.toNat := by
  simp only [packBytes, toNat_append_byte]
  omega

theorem byteOf_toNat (v : Word) (i : Nat) : (byteOf v i).toNat = v.toNat / 2 ^ (8 * (3 - i)) % 256 := by
  simp [byteOf, Nat.shiftRight_eq_div_pow]

theorem byteOf_packBytes (b0 b1 b2 b3 : Byte) {i : Nat} (h : i < 4) :
    byteOf (packBytes b0 b1 b2 b3) i = [b0, b1, b2, b3].getD i 0 := by
  apply BitVec.eq_of_toNat_eq
  rw [byteOf_toNat, packBytes_toNat]
  match i with
  | 0 | 1 | 2 | 3 => simp only [List.getD_cons_zero, List.getD_cons_succ]; omega

/-- Settles O25: the answer of `PACK` is `packBytes` of the four low bytes. -/
theorem packComposesFourBytes : Obligations.PackComposesFourBytes := by
  intro a b c d s
  exact ⟨decode_of_legalWord rfl rfl, _, rfl, by simp only [packBytes_toNat, lowByte_toNat]⟩

theorem zext32_byteOf_byteIndex_toNat (value byteNo : Word) :
    (zext32 (byteOf value (byteIndex byteNo))).toNat = value.toNat / 2 ^ (8 * (3 - byteNo.toNat % 4)) % 256 := by
  rw [zext32_toNat (by decide), byteOf_toNat, byteIndex_eq]

/-- Settles O26: the answer of `GETB` is the zero-extended byte of `A` that the index in `B` numbers. -/
theorem getbExtractsByte : Obligations.GetbExtractsByte := by
  intro a b c d s
  exact ⟨decode_of_legalWord rfl rfl, _, rfl, zext32_byteOf_byteIndex_toNat a b⟩

/-- Settles O27: `GETB` reads the word that `PACK` left, and there `byteOf` gives back the packed byte. -/
theorem getbReturnsPackedByte : Obligations.GetbReturnsPackedByte := by
  intro b0 b1 b2 b3 i s
  have hi : byteIndex i < 4 := by rw [byteIndex_eq]; omega
  refine ⟨_, _, rfl, rfl, ?_⟩
  rw [respondWord_resLo, respondWord_resLo, zext32_toNat (by decide), byteOf_packBytes _ _ _ _ hi, ← byteIndex_eq,
    ← lowByte_toNat]
  exact congrArg BitVec.toNat (List.getD_map (l := [b0, b1, b2, b3]) (d := 0) lowByte)

/-! ### `TOU32` and `HIPART` -/

theorem truncate_of_nonneg {q : Rat} (h : 0 ≤ q) : truncate q = ⌊q⌋ := by
  rw [truncate, Rat.floor_def', Int.tdiv_eq_ediv_of_nonneg (Rat.num_nonneg.2 h)]

theorem truncate_neg (q : Rat) : truncate (-q) = -truncate q := by
  simp [truncate, Int.neg_tdiv]

theorem truncate_of_nonpos {q : Rat} (h : q ≤ 0) : truncate q = ⌈q⌉ := by
  have hneg : truncate (-q) = ⌊-q⌋ := truncate_of_nonneg (by simpa using h)
  rw [truncate_neg, Int.floor_neg] at hneg
  omega

theorem truncate_eq (q : Rat) : truncate q = if 0 ≤ q then ⌊q⌋ else ⌈q⌉ := by
  split
  case isTrue h => exact truncate_of_nonneg h
  case isFalse h => exact truncate_of_nonpos (le_of_not_ge h)

theorem truncate_intCast (n : Int) : truncate n = n := by
  simp [truncate]

theorem tou32Finite_toNat (q : Rat) : ((tou32Finite q).toNat : Int) = truncate q % 2 ^ 32 := by
  rw [tou32Finite, BitVec.toNat_ofInt, Int.toNat_of_nonneg (Int.emod_nonneg _ (by decide))]
  rfl

theorem hipartFinite_toNat (q : Rat) : ((hipartFinite q).toNat : Int) = ⌊q / 2 ^ 32⌋ % 2 ^ 32 := by
  have hbase : (4294967296 : Rat) = 2 ^ 32 := by norm_num
  have hfloor : (q / 4294967296).floor = ⌊q / 2 ^ 32⌋ := by rw [hbase]; rfl
  rw [hipartFinite, tou32Finite_toNat, truncate_intCast, hfloor]

theorem floor_intCast_div_two_pow (n : Int) : ⌊(n : Rat) / 2 ^ 32⌋ = n / 2 ^ 32 := by
  exact_mod_cast Rat.floor_intCast_div_natCast n (2 ^ 32)

/-- Settles O46: `TOU32` takes the residue of `truncate`, which is the floor or the ceiling by the sign. -/
theorem tou32TruncatesAndReduces : Obligations.Tou32TruncatesAndReduces :=
  ⟨fun q => ⟨_, rfl, by rw [tou32Finite_toNat, truncate_eq]⟩, rfl⟩

/-- Settles O47: on an integer the two words are the residues of its quotient and of itself, its two digits to base `2 ^ 32`. -/
theorem hipartSplitsNumber : Obligations.HipartSplitsNumber := by
  refine ⟨fun q => ⟨_, rfl, hipartFinite_toNat q⟩, rfl, fun n => ⟨_, _, rfl, rfl, ?_⟩⟩
  rw [hipartFinite_toNat, floor_intCast_div_two_pow, tou32Finite_toNat, truncate_intCast]
  omega

/-! ### The digits of `HEX` -/

/-- The lower-case hexadecimal digits, in the order of their values. -/
def lowerHexDigits : List Char := ['0', '1', '2', '3', '4', '5', '6', '7', '8', '9', 'a', 'b', 'c', 'd', 'e', 'f']

theorem hexDigit_mem (n : Nat) : hexDigit n ∈ lowerHexDigits := by
  have hget : hexDigit n = lowerHexDigits.getD n '0' := rfl
  rw [hget]
  by_cases h : n < lowerHexDigits.length
  · rw [List.getD_eq_getElem _ _ h]
    exact List.getElem_mem h
  · rw [List.getD_eq_default _ _ (Nat.le_of_not_lt h)]
    decide

theorem digitValue_hexDigit {n : Nat} (h : n < 16) : digitValue 16 (hexDigit n) = some n := by
  revert n
  decide

/-- Reading on after the quotient by `16 ^ k`, the next `k` digits of a number give the number. -/
theorem digitsFrom_lower_digits (v k : Nat) :
    digitsFrom 16 (v / 16 ^ k) ((List.range k).reverse.map fun i => hexDigit (v / 16 ^ i % 16)) = some v := by
  induction k with
  | zero => simp [digitsFrom]
  | succ k ih =>
    have hacc : v / 16 ^ (k + 1) * 16 + v / 16 ^ k % 16 = v / 16 ^ k := by
      rw [Nat.pow_succ, ← Nat.div_div_eq_div_mul]
      omega
    simpa [List.range_succ, digitsFrom, digitValue_hexDigit (Nat.mod_lt _ _), hacc] using ih

theorem digitsFrom_allHexDigits (v : Word) : digitsFrom 16 0 (allHexDigits v) = some v.toNat := by
  have hzero : v.toNat / 16 ^ 8 = 0 := Nat.div_eq_of_lt v.isLt
  exact hzero ▸ digitsFrom_lower_digits v.toNat 8

theorem digitsFrom_zero_cons (ds : List Char) : digitsFrom 16 0 ('0' :: ds) = digitsFrom 16 0 ds := by
  have hzero : digitValue 16 '0' = some 0 := by decide
  simp [digitsFrom, hzero]

theorem digitsFrom_replicate_zero (k : Nat) (ds : List Char) :
    digitsFrom 16 0 (List.replicate k '0' ++ ds) = digitsFrom 16 0 ds := by
  induction k with
  | zero => rfl
  | succ k ih => rw [List.replicate_succ, List.cons_append, digitsFrom_zero_cons, ih]

theorem digitsFrom_dropWhile_zero (ds : List Char) :
    digitsFrom 16 0 (ds.dropWhile (· == '0')) = digitsFrom 16 0 ds := by
  induction ds with
  | nil => rfl
  | cons d ds ih =>
    by_cases hd : d = '0'
    · subst hd
      rw [List.dropWhile_cons_of_pos (by simp), ih, digitsFrom_zero_cons]
    · rw [List.dropWhile_cons_of_neg (by simpa using hd)]

/-! ### `HEX` -/

/-- All that the natural digits can be: the one digit of 0, or the digits from the first that is not `0` on. -/
theorem naturalHex_cases (v : Word) :
    (v = 0 ∧ naturalHex v = ['0']) ∨
      (v ≠ 0 ∧ naturalHex v = (allHexDigits v).dropWhile (· == '0') ∧ naturalHex v ≠ []) := by
  have hread := (digitsFrom_dropWhile_zero (allHexDigits v)).trans (digitsFrom_allHexDigits v)
  by_cases hv : v = 0
  · subst hv
    exact .inl ⟨rfl, by decide⟩
  · refine .inr ⟨hv, ?_⟩
    cases hds : (allHexDigits v).dropWhile (· == '0') with
    | nil =>
      rw [hds] at hread
      exact absurd (BitVec.eq_of_toNat_eq (Option.some.inj hread).symm) hv
    | cons d ds => simp [naturalHex, hds]

theorem mem_naturalHex {v : Word} {ch : Char} (h : ch ∈ naturalHex v) : ch ∈ lowerHexDigits := by
  rcases naturalHex_cases v with ⟨-, hn⟩ | ⟨-, hn, -⟩ <;> rw [hn] at h
  · rw [List.mem_singleton.1 h]
    decide
  · obtain ⟨i, -, rfl⟩ := List.mem_map.1 ((List.dropWhile_sublist _).subset h)
    exact hexDigit_mem _

theorem naturalHex_ne_nil (v : Word) : naturalHex v ≠ [] := by
  rcases naturalHex_cases v with ⟨-, hn⟩ | ⟨-, -, hne⟩
  · simp [hn]
  · exact hne

theorem length_naturalHex_le (v : Word) : (naturalHex v).length ≤ 8 := by
  rcases naturalHex_cases v with ⟨-, hn⟩ | ⟨-, hn, -⟩ <;> rw [hn]
  · decide
  · exact List.length_dropWhile_le _ (allHexDigits v)

theorem head?_naturalHex_ne_zero {v : Word} (h : v ≠ 0) : (naturalHex v).head? ≠ some '0' := by
  rcases naturalHex_cases v with ⟨hv, -⟩ | ⟨-, hn, -⟩
  · exact absurd hv h
  · intro hhead
    have hfirst := List.head?_dropWhile_not (· == '0') (allHexDigits v)
    rw [← hn, hhead] at hfirst
    simp at hfirst

theorem digitsFrom_naturalHex (v : Word) : digitsFrom 16 0 (naturalHex v) = some v.toNat := by
  rcases naturalHex_cases v with ⟨rfl, hn⟩ | ⟨-, hn, -⟩ <;> rw [hn]
  · decide
  · rw [digitsFrom_dropWhile_zero, digitsFrom_allHexDigits]

theorem length_hexText (v : Word) (m : Nat) : (hexText v m).length = max m (naturalHex v).length := by
  simp only [hexText, List.length_append, List.length_replicate]
  omega

theorem readNat_hexText (v : Word) (m : Nat) : readNat 16 (hexText v m) = some v.toNat := by
  have hne : hexText v m ≠ [] := by simp [hexText, naturalHex_ne_nil]
  rw [readNat, if_neg (by simpa using hne), hexText, digitsFrom_replicate_zero, digitsFrom_naturalHex]

theorem mem_hexText {v : Word} {m : Nat} {ch : Char} (h : ch ∈ hexText v m) : ch ∈ lowerHexDigits := by
  rcases List.mem_append.1 h with hpad | hdigits
  · rw [List.eq_of_mem_replicate hpad]
    decide
  · exact mem_naturalHex hdigits

/-- Settles O48: the padding adds zeros in front, which change neither the value read nor the digits behind them. -/
theorem hexRendersWord : Obligations.HexRendersWord := by
  intro v m
  refine ⟨fun _ => mem_hexText, readNat_hexText v m, length_hexText v m, rfl, head?_naturalHex_ne_zero, ?_, ?_⟩
  · rintro rfl
    decide
  · rw [length_hexText, Nat.max_eq_left (length_naturalHex_le v)]

end Sys2Proof.Machine
end

section
/-! PROOFS of the family 42_logic. Bit by bit, what the three folds answer to one to four operands (R120 to R123), and the
complement (R124). -/

namespace Sys2Proof.Machine

/-! ### The bits of a left fold -/

theorem getLsbD_foldl_or (v : Word) (ws : List Word) (i : Nat) :
    (ws.foldl (· ||| ·) v).getLsbD i = true ↔ ∃ x ∈ v :: ws, x.getLsbD i = true := by
  induction ws generalizing v with
  | nil => simp
  | cons w ws ih => simp [ih, or_assoc]

theorem getLsbD_foldl_and (v : Word) (ws : List Word) (i : Nat) :
    (ws.foldl (· &&& ·) v).getLsbD i = true ↔ ∀ x ∈ v :: ws, x.getLsbD i = true := by
  induction ws generalizing v with
  | nil => simp
  | cons w ws ih => simp [ih, and_assoc]

/-- Folding in a word that has the bit changes the parity, so two such words leave it as it was. -/
theorem getLsbD_foldl_xor (v : Word) (ws : List Word) (i : Nat) :
    (ws.foldl (· ^^^ ·) v).getLsbD i = true ↔ ((v :: ws).filter fun x => x.getLsbD i).length % 2 = 1 := by
  induction ws generalizing v with
  | nil => cases hv : v.getLsbD i <;> simp [hv]
  | cons w ws ih =>
    rw [List.foldl_cons, ih]
    cases hv : v.getLsbD i <;> cases hw : w.getLsbD i
    case true.true => simp [hv, hw, Nat.add_assoc]
    all_goals simp [hv, hw]

/-! ### The four commands -/

/-- A fold of one to four operands answers their left fold (42_logic R120). -/
theorem respondFold_eq_foldl (op : Word → Word → Word) {vs : List Word} (s : State) (h1 : 1 ≤ vs.length)
    (h4 : vs.length ≤ 4) :
    ∃ v ws, vs = v :: ws ∧ respondFold op vs s = .next (respondWord (ws.foldl op v) s) := by
  rcases respondFold_cases op vs s with ⟨v, ws, hvs, -, hn⟩ | ⟨rfl | hlong, -⟩
  · exact ⟨v, ws, hvs, hn⟩
  · cases h1
  · omega

/-- Settles O28: the answer is the left fold, whose bits `getLsbD_foldl_or` gives. -/
theorem orSetsBitOfAnyOperand : Obligations.OrSetsBitOfAnyOperand := by
  refine ⟨fun a b c d => ?_, fun vs s h1 h4 => ?_⟩
  · obtain ⟨-, -, hor, -⟩ := commandWordMapIsComplete.1 a b c d
    exact hor
  · obtain ⟨v, ws, rfl, hn⟩ := respondFold_eq_foldl (· ||| ·) s h1 h4
    exact ⟨_, hn, fun i _ => getLsbD_foldl_or v ws i⟩

/-- Settles O29: the answer is the left fold, whose bits `getLsbD_foldl_and` gives. -/
theorem andSetsBitOfAllOperands : Obligations.AndSetsBitOfAllOperands := by
  refine ⟨fun a b c d => ?_, fun vs s h1 h4 => ?_⟩
  · obtain ⟨-, -, -, hand, -⟩ := commandWordMapIsComplete.1 a b c d
    exact hand
  · obtain ⟨v, ws, rfl, hn⟩ := respondFold_eq_foldl (· &&& ·) s h1 h4
    exact ⟨_, hn, fun i _ => getLsbD_foldl_and v ws i⟩

/-- Settles O30: the answer is the left fold, whose bits `getLsbD_foldl_xor` gives. -/
theorem xorSetsBitOfOddOperands : Obligations.XorSetsBitOfOddOperands := by
  refine ⟨fun a b c d => ?_, fun vs s h1 h4 => ?_⟩
  · obtain ⟨-, -, -, -, hxor, -⟩ := commandWordMapIsComplete.1 a b c d
    exact hxor
  · obtain ⟨v, ws, rfl, hn⟩ := respondFold_eq_foldl (· ^^^ ·) s h1 h4
    exact ⟨_, hn, fun i _ => getLsbD_foldl_xor v ws i⟩

/-- Settles O32: `BitVec.toNat_not` gives the complement as a number, and every bit below the width is complemented. -/
theorem notComplementsWord : Obligations.NotComplementsWord := by
  intro a b c d s
  exact ⟨decode_of_legalWord rfl rfl, _, rfl, BitVec.toNat_not, fun i hi => by simp [hi]⟩

end Sys2Proof.Machine
end

section
/-! PROOFS of the family 43_shift_rotate. The shifts as numbers and bit by bit (R140 to R142), the rotations bit by bit
(R143, R144), and the identities of R145. -/

namespace Sys2Proof.Machine

/-! ### The shifts -/

/-- Bit `i` of a shift to the left is bit `i - n`, and the bits below `n` are 0 (43_shift_rotate R141). -/
theorem getLsbD_shiftLeft_word (v : Word) (n : Nat) {i : Nat} (hi : i < 32) :
    (v <<< n).getLsbD i = (decide (n ≤ i) && v.getLsbD (i - n)) := by
  simp only [BitVec.getLsbD_shiftLeft, hi, decide_true, Bool.true_and, ← decide_not, Nat.not_lt]

/-- Bit `i` of a shift to the right is bit `i + n`, and there is no bit above 31 (43_shift_rotate R142). -/
theorem getLsbD_ushiftRight_word (v : Word) (n i : Nat) :
    (v >>> n).getLsbD i = (decide (i + n ≤ 31) && v.getLsbD (i + n)) := by
  rw [BitVec.getLsbD_ushiftRight, Nat.add_comm n i]
  by_cases h : i + n ≤ 31
  · simp [h]
  · simp [h, BitVec.getLsbD_of_ge v (i + n) (by omega)]

/-- Settles O33: the answer of `SHL` is the shift by `shiftAmount`, with the bits of `getLsbD_shiftLeft_word`. -/
theorem shlShiftsLeft : Obligations.ShlShiftsLeft := by
  intro a b c d s
  refine ⟨decode_of_legalWord rfl rfl, _, rfl, ?_, fun i hi => ?_⟩ <;> rw [shiftAmount_eq]
  · rw [BitVec.toNat_shiftLeft, Nat.shiftLeft_eq]
  · exact getLsbD_shiftLeft_word a _ hi

/-- Settles O34: the answer of `SHR` is the shift by `shiftAmount`, with the bits of `getLsbD_ushiftRight_word`. -/
theorem shrShiftsRight : Obligations.ShrShiftsRight := by
  intro a b c d s
  refine ⟨decode_of_legalWord rfl rfl, _, rfl, ?_, fun i _ => ?_⟩ <;> rw [shiftAmount_eq]
  · rw [BitVec.toNat_ushiftRight, Nat.shiftRight_eq_div_pow]
  · exact getLsbD_ushiftRight_word a _ i

/-! ### The rotations -/

@[simp] theorem rotateLeft_zero (v : Word) : rotateLeft v 0 = v := rfl

@[simp] theorem rotateRight_zero (v : Word) : rotateRight v 0 = v := rfl

theorem rotateLeft_of_ne_zero (v : Word) {n : Nat} (h : n ≠ 0) : rotateLeft v n = (v <<< n) ||| (v >>> (32 - n)) :=
  if_neg h

theorem rotateRight_of_ne_zero (v : Word) {n : Nat} (h : n ≠ 0) : rotateRight v n = (v >>> n) ||| (v <<< (32 - n)) :=
  if_neg h

/-- The first identity of 43_shift_rotate R145. -/
theorem rotateRight_eq_rotateLeft (v : Word) {n : Nat} (hn : n < 32) :
    rotateRight v n = rotateLeft v ((32 - n) % 32) := by
  by_cases h0 : n = 0
  · subst h0
    rfl
  · rw [Nat.mod_eq_of_lt (by omega), rotateRight_of_ne_zero v h0, rotateLeft_of_ne_zero v (by omega),
      Nat.sub_sub_self hn.le, BitVec.or_comm]

/-- Below `n` the bits come round from the top of the word, from `n` on they are the bits shifted up. -/
theorem getLsbD_rotateLeft (v : Word) {n i : Nat} (hn : n < 32) (hi : i < 32) :
    (rotateLeft v n).getLsbD i = v.getLsbD ((i + (32 - n)) % 32) := by
  by_cases h0 : n = 0
  · subst h0
    simp [Nat.mod_eq_of_lt hi]
  · rw [rotateLeft_of_ne_zero v h0, BitVec.getLsbD_or, getLsbD_shiftLeft_word v n hi, getLsbD_ushiftRight_word]
    by_cases h : i < n
    · have hwrap : (i + (32 - n)) % 32 = i + (32 - n) := Nat.mod_eq_of_lt (by omega)
      have htop : i + (32 - n) ≤ 31 := by omega
      simp [Nat.not_le.2 h, hwrap, htop]
    · have hwrap : (i + (32 - n)) % 32 = i - n := by omega
      have htop : ¬ i + (32 - n) ≤ 31 := by omega
      simp [Nat.le_of_not_lt h, hwrap, htop]

theorem getLsbD_rotateRight (v : Word) {n i : Nat} (hn : n < 32) (hi : i < 32) :
    (rotateRight v n).getLsbD i = v.getLsbD ((i + n) % 32) := by
  have hwrap : (i + (32 - (32 - n) % 32)) % 32 = (i + n) % 32 := by omega
  rw [rotateRight_eq_rotateLeft v hn, getLsbD_rotateLeft v (Nat.mod_lt _ (by decide)) hi, hwrap]

/-- The second identity of 43_shift_rotate R145: bit `i` goes to `i + n` and back, modulo 32. -/
theorem rotateRight_rotateLeft (v : Word) {n : Nat} (hn : n < 32) : rotateRight (rotateLeft v n) n = v := by
  apply BitVec.eq_of_getLsbD_eq
  intro i hi
  have hback : ((i + n) % 32 + (32 - n)) % 32 = i := by omega
  rw [getLsbD_rotateRight _ hn hi, getLsbD_rotateLeft v hn (Nat.mod_lt _ (by decide)), hback]

/-- Settles O35: the answer of `ROTL` is `rotateLeft` by `shiftAmount`, with the bits of `getLsbD_rotateLeft`. -/
theorem rotlRotatesLeft : Obligations.RotlRotatesLeft := by
  intro a b c d s
  refine ⟨decode_of_legalWord rfl rfl, _, rfl, fun h => ?_, fun h => ?_, fun i hi => ?_⟩ <;> rw [shiftAmount_eq]
  · rw [h, rotateLeft_zero]
  · exact rotateLeft_of_ne_zero a h
  · exact getLsbD_rotateLeft a (Nat.mod_lt _ (by decide)) hi

/-- Settles O36: the answer of `ROTR` is `rotateRight` by `shiftAmount`, with the bits of `getLsbD_rotateRight`. -/
theorem rotrRotatesRight : Obligations.RotrRotatesRight := by
  intro a b c d s
  refine ⟨decode_of_legalWord rfl rfl, _, rfl, fun h => ?_, fun h => ?_, fun i hi => ?_⟩ <;> rw [shiftAmount_eq]
  · rw [h, rotateRight_zero]
  · exact rotateRight_of_ne_zero a h
  · exact getLsbD_rotateRight a (Nat.mod_lt _ (by decide)) hi

/-! ### The identities between the commands -/

theorem shiftAmount_ofNat {n : Nat} (hn : n < 32) : shiftAmount (BitVec.ofNat 32 n) = n := by
  rw [shiftAmount_eq, BitVec.toNat_ofNat]
  omega

theorem resLoAfter_shl (v : Word) {n : Nat} (hn : n < 32) (s : State) :
    resLoAfter (.shl v (BitVec.ofNat 32 n)) s = some (v <<< n) :=
  congrArg (fun k : Nat => some (v <<< k)) (shiftAmount_ofNat hn)

theorem resLoAfter_shr (v : Word) {n : Nat} (hn : n < 32) (s : State) :
    resLoAfter (.shr v (BitVec.ofNat 32 n)) s = some (v >>> n) :=
  congrArg (fun k : Nat => some (v >>> k)) (shiftAmount_ofNat hn)

theorem resLoAfter_rotl (v : Word) {n : Nat} (hn : n < 32) (s : State) :
    resLoAfter (.rotl v (BitVec.ofNat 32 n)) s = some (rotateLeft v n) :=
  congrArg (some ∘ rotateLeft v) (shiftAmount_ofNat hn)

theorem resLoAfter_rotr (v : Word) {n : Nat} (hn : n < 32) (s : State) :
    resLoAfter (.rotr v (BitVec.ofNat 32 n)) s = some (rotateRight v n) :=
  congrArg (some ∘ rotateRight v) (shiftAmount_ofNat hn)

/-- Settles O37: by what the commands leave in `RES_LO`, the identities are those of `rotateLeft` and `rotateRight`. -/
theorem rotationIdentities : Obligations.RotationIdentities := by
  intro v n s hle
  have hn : n < 32 := by omega
  refine ⟨?_, ⟨rotateLeft v n, resLoAfter_rotl v hn s, ?_⟩, fun h1 => ?_⟩
  · rw [resLoAfter_rotr v hn, resLoAfter_rotl v (Nat.mod_lt _ (by decide)), rotateRight_eq_rotateLeft v hn]
  · rw [resLoAfter_rotr _ hn, rotateRight_rotateLeft v hn]
  · refine ⟨_, _, resLoAfter_shl v hn s, resLoAfter_shr v (by omega) s, ?_⟩
    rw [resLoAfter_rotl v hn, rotateLeft_of_ne_zero v (by omega)]

end Sys2Proof.Machine
end

section
/-! PROOFS of the family 44_gates. Bit by bit, what `CH` and `MAJ` answer (R161, R162), and the other expressions that the
rules give for the same words. -/

namespace Sys2Proof.Machine

/-! ### Choice -/

/-- Where `x` has a 1, the two exclusive ors with the bit of `z` cancel; where it has a 0, only that bit is left. -/
theorem getLsbD_choose (x y z : Word) (i : Nat) :
    (choose x y z).getLsbD i = if x.getLsbD i then y.getLsbD i else z.getLsbD i := by
  cases hx : x.getLsbD i <;> simp [choose, hx]

/-- The equivalent form of 44_gates R161: the two halves of the disjunction choose by the same bit of `x`. -/
theorem choose_eq_or (x y z : Word) : choose x y z = (x &&& y) ||| (~~~x &&& z) := by
  apply BitVec.eq_of_getLsbD_eq
  intro i hi
  simp only [getLsbD_choose, BitVec.getLsbD_or, BitVec.getLsbD_and, BitVec.getLsbD_not, hi, decide_true, Bool.true_and]
  cases x.getLsbD i <;> simp

/-- Settles O38: the answer of `CH` is `choose`, with the bits of `getLsbD_choose`. -/
theorem chSelectsBits : Obligations.ChSelectsBits := by
  intro a b c d s
  exact ⟨decode_of_legalWord rfl rfl, _, rfl, choose_eq_or a b c, fun i _ => getLsbD_choose a b c i⟩

/-! ### Majority -/

/-- One 1 among the bits of `y` and `z` is enough where `x` has a 1; where it has a 0, both must be 1. -/
theorem getLsbD_majority (x y z : Word) (i : Nat) :
    (majority x y z).getLsbD i = if x.getLsbD i then y.getLsbD i || z.getLsbD i else y.getLsbD i && z.getLsbD i := by
  cases hx : x.getLsbD i
  case false => simp [majority, hx]
  case true => cases hy : y.getLsbD i <;> simp [majority, hx, hy]

theorem two_le_toNat_add_iff (p q r : Bool) :
    2 ≤ p.toNat + q.toNat + r.toNat ↔ (if p then q || r else q && r) = true := by
  revert p q r
  decide

/-- The equivalent form of 44_gates R162: of three 1s all three products are 1, of two 1s one product, of fewer none. -/
theorem majority_eq_xor (x y z : Word) : majority x y z = (x &&& y) ^^^ (x &&& z) ^^^ (y &&& z) := by
  apply BitVec.eq_of_getLsbD_eq
  intro i _
  rw [getLsbD_majority]
  cases hx : x.getLsbD i
  case false => simp [hx]
  case true => cases hy : y.getLsbD i <;> simp [hx, hy]

/-- Settles O39: the answer of `MAJ` is `majority`, and its bits of `getLsbD_majority` are the count of the statement. -/
theorem majTakesMajority : Obligations.MajTakesMajority := by
  intro a b c d s
  refine ⟨decode_of_legalWord rfl rfl, _, rfl, majority_eq_xor a b c, fun i _ => ?_⟩
  rw [getLsbD_majority, two_le_toNat_add_iff]

end Sys2Proof.Machine
end

section
/-! PROOFS of the family 45_log2. The bit scan of `LOG2` finds the integer logarithm (R170), and what the command answers for
0 and for every other word (R171). -/

namespace Sys2Proof.Machine

/-! ### The bit scan -/

theorem toNat_ne_zero_of_ne_zero {v : Word} (h : v ≠ 0) : v.toNat ≠ 0 := BitVec.toNat_ne.1 h

/-- A scan that begins at or above the highest 1 ends there, and a number's highest 1 stands at its integer logarithm. -/
theorem highestBit_eq_log2 {v : Word} (h0 : v.toNat ≠ 0) {k : Nat} (h : v.toNat < 2 ^ (k + 1)) :
    highestBit v k = Nat.log2 v.toNat := by
  induction k with
  | zero => exact (Nat.lt_one_iff.1 ((Nat.log2_lt h0).2 h)).symm
  | succ k ih =>
    rw [highestBit, ← BitVec.testBit_toNat]
    split
    case isTrue hbit => exact ((Nat.log2_eq_iff h0).2 ⟨Nat.ge_two_pow_of_testBit hbit, h⟩).symm
    case isFalse hbit =>
      exact ih (lt_of_not_ge fun hge => hbit (Nat.testBit_of_two_pow_le_and_two_pow_add_one_gt hge h))

theorem ilog2_eq_log2 {v : Word} (h : v ≠ 0) : ilog2 v = Nat.log2 v.toNat :=
  highestBit_eq_log2 (toNat_ne_zero_of_ne_zero h) v.isLt

theorem log2_toNat_lt {v : Word} (h : v ≠ 0) : Nat.log2 v.toNat < 32 :=
  (Nat.log2_lt (toNat_ne_zero_of_ne_zero h)).2 v.isLt

/-! ### The answer of `LOG2` -/

theorem exec_log2_zero (s : State) : exec (.log2 0) s = .next (respond ninfFiller 0 true s) := rfl

/-- Of a word that is not 0, `LOG2` answers the integer logarithm, which fits in the result word (45_log2 R171). -/
theorem exec_log2_of_ne_zero {v : Word} (h : v ≠ 0) (s : State) :
    ∃ lo : Word, lo.toNat = Nat.log2 v.toNat ∧ exec (.log2 v) s = .next (respondWord lo s) := by
  have hn : log2Ninf v = false := by simpa [log2Ninf] using h
  have hlt : Nat.log2 v.toNat < 2 ^ 32 := (log2_toNat_lt h).trans (by decide)
  refine ⟨BitVec.ofNat 32 (Nat.log2 v.toNat), Nat.mod_eq_of_lt hlt, ?_⟩
  rw [exec, execLog2, if_neg h, ilog2_eq_log2 h, hn, respondWord]

/-- The result of a completed `LOG2` is negative infinity for the operand 0 alone, as `NINF` is (45_log2 R171). -/
theorem logResult_of_exec_log2 {v : Word} {s t : State} (h : exec (.log2 v) s = .next t) :
    logResult t = if v = 0 then .negInf else .finite t.resLo.toNat := by
  simp only [logResult, ninfBit_of_exec_next h, Instr.log2.injEq]

/-- Settles O40: the answer is `Nat.log2`, the place of the operand's highest 1. -/
theorem log2IsExact : Obligations.Log2IsExact := by
  intro a b c d s
  refine ⟨decode_of_log2Word rfl, ?_, fun h => ?_, fun _ => logResult_of_exec_log2, fun _ _ => ninfBit_of_exec_next⟩
  · rintro rfl
    exact exec_log2_zero s
  · have h0 := toNat_ne_zero_of_ne_zero h
    obtain ⟨lo, hlo, hs⟩ := exec_log2_of_ne_zero h s
    refine ⟨lo, hs, ?_⟩
    simp only [hlo, ← BitVec.testBit_toNat]
    exact ⟨Nat.le_of_lt_succ (log2_toNat_lt h), Nat.log2_self_le h0, Nat.lt_log2_self, Nat.testBit_log2 h0,
      fun j hj => Nat.testBit_eq_false_of_lt ((Nat.log2_lt h0).1 hj)⟩

/-- Settles O41: of 0 the answer carries `NINF`, and of any other word it is `Nat.log2` of the operand. -/
theorem log2ResultAsSumType : Obligations.Log2ResultAsSumType := by
  intro a s
  by_cases h : a = 0
  · subst h
    exact ⟨_, exec_log2_zero s, logResult_of_exec_log2 (exec_log2_zero s)⟩
  · obtain ⟨lo, hlo, hs⟩ := exec_log2_of_ne_zero h s
    refine ⟨_, hs, ?_⟩
    rw [logResult_of_exec_log2 hs, if_neg h, if_neg (toNat_ne_zero_of_ne_zero h), respondWord_resLo, hlo]

end Sys2Proof.Machine
end

section
/-! PROOFS of the family 46_mult. What `MUL` answers as a number (R180) and as the halves of a 64-bit product (R181), and that
the reference dataflow of R182 answers the same (R183). -/

namespace Sys2Proof.Machine

/-! ### The wide product and its halves -/

theorem product_toNat (a b : Word) : (product a b).toNat = a.toNat * b.toNat :=
  Nat.mod_eq_of_lt BitVec.toNat_mul_toNat_lt

theorem product_eq_mul (a b : Word) : product a b = a.setWidth 64 * b.setWidth 64 := by
  rw [product, BitVec.ofNat_mul, BitVec.ofNat_toNat, BitVec.ofNat_toNat]

/-- The largest product is `(2^32 - 1)^2`, which bounds the high word (46_mult R180). -/
theorem mul_toNat_div_le (a b : Word) : a.toNat * b.toNat / 2 ^ 32 ≤ 0xFFFFFFFE :=
  have hle : a.toNat * b.toNat ≤ (2 ^ 32 - 1) * (2 ^ 32 - 1) :=
    Nat.mul_le_mul (Nat.le_sub_one_of_lt a.isLt) (Nat.le_sub_one_of_lt b.isLt)
  Nat.div_le_div_right hle

/-- `toNat_append_byte` for a low part of any width. -/
theorem toNat_append_eq_add {m n : Nat} (x : BitVec m) (y : BitVec n) :
    (x ++ y).toNat = x.toNat * 2 ^ n + y.toNat := by
  rw [BitVec.toNat_append, ← Nat.shiftLeft_add_eq_or_of_lt y.isLt, Nat.shiftLeft_eq]

/-- The contract of 46_mult R180 says that the pair, as one 64-bit word, is the product. -/
theorem product_eq_append_iff {a b hi lo : Word} :
    product a b = hi ++ lo ↔ hi.toNat * 2 ^ 32 + lo.toNat = a.toNat * b.toNat := by
  rw [← BitVec.toNat_inj, product_toNat, toNat_append_eq_add, eq_comm]

theorem exists_product_eq_append (a b : Word) : ∃ hi lo : Word, product a b = hi ++ lo := by
  refine ⟨(product a b).extractLsb' 32 32, (product a b).extractLsb' 0 32, ?_⟩
  rw [BitVec.extractLsb'_append_extractLsb'_eq_extractLsb' (show 32 = 0 + 32 from rfl), BitVec.extractLsb'_eq_self]

/-- A pair of words is a number exactly when it is the number's quotient and remainder by `2^32`. -/
theorem toNat_pair_eq_iff {hi lo : Word} {n : Nat} :
    hi.toNat * 2 ^ 32 + lo.toNat = n ↔ lo.toNat = n % 2 ^ 32 ∧ hi.toNat = n / 2 ^ 32 := by
  have := lo.isLt
  omega

/-! ### The answer of `MUL` -/

/-- `MUL` answers whatever pair of words the product is (46_mult R181). -/
theorem exec_mul_of_product_eq_append {a b hi lo : Word} (h : product a b = hi ++ lo) (s : State) :
    exec (.mul a b) s = .next { s with resLo := lo, resHi := hi, status := 0b001#3 } := by
  rw [exec, execMul, h, BitVec.extractLsb'_append_eq_left, BitVec.extractLsb'_append_eq_right, respond,
    legalStatus_false]

/-- Settles O42: the pair is the quotient and the remainder of the product by `2^32`, as any pair of the same number is. -/
theorem mulIsExact : Obligations.MulIsExact := by
  intro a b s
  obtain ⟨hi, lo, h⟩ := exists_product_eq_append a b
  have hexact := product_eq_append_iff.1 h
  obtain ⟨hlo, hhi⟩ := toNat_pair_eq_iff.1 hexact
  refine ⟨lo, hi, exec_mul_of_product_eq_append h s, hexact, hlo, hhi, hhi ▸ mul_toNat_div_le a b, fun lo' hi' h' => ?_⟩
  obtain ⟨hlo', hhi'⟩ := toNat_pair_eq_iff.1 h'
  exact ⟨BitVec.eq_of_toNat_eq (hhi'.trans hhi.symm), BitVec.eq_of_toNat_eq (hlo'.trans hlo.symm)⟩

/-- Settles O43: the pair is the 64-bit product, and its high word is the product's quotient by `2^32`. -/
theorem mulPlacesProductHalves : Obligations.MulPlacesProductHalves := by
  intro a b c d s
  obtain ⟨hi, lo, h⟩ := exists_product_eq_append a b
  obtain ⟨-, hhi⟩ := toNat_pair_eq_iff.1 (product_eq_append_iff.1 h)
  refine ⟨decode_of_legalWord rfl rfl, lo, hi, exec_mul_of_product_eq_append h s, h ▸ product_eq_mul a b, ?_⟩
  rw [← BitVec.toNat_inj, hhi, BitVec.ofNat_eq_ofNat, BitVec.toNat_zero, Nat.div_eq_zero_iff_lt (by decide)]

/-! ### The reference dataflow -/

/-- No partial product overflows its 32 bits (46_mult R182). -/
theorem partialProduct_toNat (x y : BitVec 16) : (partialProduct x y).toNat = x.toNat * y.toNat := by
  have hlt : x.toNat * y.toNat < 2 ^ 32 := BitVec.toNat_mul_toNat_lt
  rw [partialProduct, BitVec.toNat_mul, zext32_toNat (by decide), zext32_toNat (by decide), Nat.mod_eq_of_lt hlt]

/-- The sum of the middle column fits in its 18 bits (46_mult R182). -/
theorem middleColumn_toNat (p0 p1 p2 : Word) :
    (middleColumn p0 p1 p2).toNat = p0.toNat / 65536 + p1.toNat % 65536 + p2.toNat % 65536 := by
  have := p0.isLt
  simp only [middleColumn, BitVec.toNat_add, BitVec.toNat_setWidth, lowHalf_toNat, highHalf_toNat]
  omega

/-- The number of a word by its halves. -/
theorem toNat_eq_halves (w : Word) : w.toNat = (highHalf w).toNat * 65536 + (lowHalf w).toNat := by
  rw [highHalf_toNat, lowHalf_toNat, Nat.div_add_mod']

/-- The four partial products at their weights are the product (46_mult R183). -/
theorem mul_toNat_eq_partialProducts (a b : Word) :
    a.toNat * b.toNat =
      (partialProduct (highHalf a) (highHalf b)).toNat * 2 ^ 32 +
        ((partialProduct (lowHalf a) (highHalf b)).toNat + (partialProduct (highHalf a) (lowHalf b)).toNat) * 65536 +
        (partialProduct (lowHalf a) (lowHalf b)).toNat := by
  rw [toNat_eq_halves a, toNat_eq_halves b]
  simp only [partialProduct_toNat]
  ring

/-- The carry network of 46_mult R182 over the integers loses nothing of the partial products (46_mult R183). -/
theorem carryNetwork_exact (p0 p1 p2 p3 : Nat) :
    (p3 + p1 / 65536 + p2 / 65536 + (p0 / 65536 + p1 % 65536 + p2 % 65536) / 65536) * 2 ^ 32 +
        ((p0 / 65536 + p1 % 65536 + p2 % 65536) % 65536 * 65536 + p0 % 65536) =
      p3 * 2 ^ 32 + (p1 + p2) * 65536 + p0 := by
  omega

theorem highColumn_toNat (p1 p2 p3 : Word) (mid : BitVec 18) :
    (p3 + zext32 (highHalf p1) + zext32 (highHalf p2) + zext32 (mid.extractLsb' 16 2)).toNat =
      (p3.toNat + p1.toNat / 65536 + p2.toNat / 65536 + mid.toNat / 65536) % 2 ^ 32 := by
  have hmid : (mid.extractLsb' 16 2).toNat = mid.toNat / 65536 := by
    have := mid.isLt
    rw [BitVec.extractLsb'_toNat, Nat.shiftRight_eq_div_pow]
    omega
  have zext16 : ∀ v : BitVec 16, (zext32 v).toNat = v.toNat := zext32_toNat (by decide)
  have zext2 : ∀ v : BitVec 2, (zext32 v).toNat = v.toNat := zext32_toNat (by decide)
  simp only [BitVec.toNat_add, zext16, zext2, highHalf_toNat, hmid, Nat.mod_add_mod]

theorem lowColumn_toNat (p0 : Word) (mid : BitVec 18) :
    (mid.extractLsb' 0 16 ++ lowHalf p0).toNat = mid.toNat % 65536 * 65536 + p0.toNat % 65536 := by
  simp only [toNat_append_eq_add, lowHalf_toNat, BitVec.extractLsb'_toNat, Nat.shiftRight_zero, Nat.reducePow]

/-- The reference dataflow meets the contract of 46_mult R180, for `hi` does not overflow: the product is below `2^64`. -/
theorem multDataflow_exact (a b : Word) :
    (multDataflow a b).1.toNat * 2 ^ 32 + (multDataflow a b).2.toNat = a.toNat * b.toNat := by
  have hprod : a.toNat * b.toNat < 2 ^ 64 := product_toNat a b ▸ (product a b).isLt
  rw [mul_toNat_eq_partialProducts, ← carryNetwork_exact] at hprod ⊢
  simp only [multDataflow, highColumn_toNat, lowColumn_toNat, middleColumn_toNat]
  rw [Nat.mod_eq_of_lt (by omega)]

/-- Settles O44: a pair that meets the contract is the product's pair of words, and that is the one `MUL` answers. -/
theorem referenceDataflowMeetsContract : Obligations.ReferenceDataflowMeetsContract := fun a b s =>
  have hexact := multDataflow_exact a b
  ⟨hexact, exec_mul_of_product_eq_append (product_eq_append_iff.2 hexact) s⟩

end Sys2Proof.Machine
end

section
/-! PROOFS of the family 60_exceptions. Nothing in the block faults (R200), the three outcome codes (R201), what an illegal
command does to the block and to the command after it (R202), and what the model's fault record keeps of it (U6). -/

namespace Sys2Proof.Machine

/-! ### An illegal command -/

theorem not_legalNumber_of_decode_illegal {c : Command} {why : IllegalReason} (h : decode c = .illegal why) :
    ¬ LegalNumber c.cmd := by
  rw [← decode_isLegal_iff_legalNumber]
  simp [h]

theorem step_of_accepts_not_legalNumber {s : State} {c : Command} (ha : Accepts s c) (hl : ¬ LegalNumber c.cmd) :
    step s = .next (respondIllegal c.cmd (consumeSample s)) :=
  have ⟨_, hd⟩ := decode_illegal_of_not_legalNumber hl
  step_of_accepts_illegal ha hd

/-- Settles O11: `respondIllegal` after `consumeSample` is the record update of the statement, and a command that completes
has answered by one `respond`, which clears `ILL`. -/
theorem illegalCommandResponse : Obligations.IllegalCommandResponse := by
  refine ⟨fun s c => step_of_accepts_not_legalNumber, fun i s t h => ?_⟩
  obtain ⟨lo, hi, ninf, rfl⟩ := exec_next h
  exact illBit_legalStatus ninf

/-- Settles O54: an illegal command leaves the block reset, so it accepts the next command, whose flags `flags_of_accepts`
gives. -/
theorem illegalCommandThenLegal : Obligations.IllegalCommandThenLegal := by
  intro s c ha hl
  refine ⟨_, step_of_accepts_not_legalNumber ha hl, rfl, rfl, fun hr hv => ?_⟩
  have hnext : Accepts (respondIllegal c.cmd (consumeSample s)) _ := ⟨ha.1, hr, hv, rfl⟩
  obtain ⟨u, hu, hrvalid, hill, -⟩ := flags_of_accepts hnext
  exact ⟨u, hu, hrvalid, fun hl' => Bool.eq_false_iff.2 fun hi => hill.1 hi hl'⟩

/-! ### No exception -/

theorem respondFold_ne_fault (op : Word → Word → Word) (vs : List Word) (s : State) (r : Fault) :
    respondFold op vs s ≠ .fault r := by
  rcases respondFold_cases op vs s with ⟨v, ws, -, -, hf⟩ | ⟨-, hf⟩ <;> simp [hf]

/-- A fold completes or is refused, and every other command completes. -/
theorem exec_ne_fault (i : Instr) (s : State) (r : Fault) : exec i s ≠ .fault r := by
  cases i with
  | or vs => exact respondFold_ne_fault (· ||| ·) vs s r
  | and vs => exact respondFold_ne_fault (· &&& ·) vs s r
  | xor vs => exact respondFold_ne_fault (· ^^^ ·) vs s r
  | _ => exact nofun

theorem step_ne_fault (s : State) (r : Fault) : step s ≠ .fault r := by
  rcases step_cases s with ⟨-, hs⟩ | ⟨-, -, hs⟩ | ⟨-, -, -, hs⟩ | ⟨-, -, -, ⟨_, -, hs⟩ | ⟨i, -, hs⟩⟩ <;> rw [hs]
  case inr.inr.inr.inr => exact exec_ne_fault i _ r
  all_goals nofun

/-- Settles O16: what decodes is well-formed and so completes, and neither a command nor any other edge can fault. -/
theorem noCommandRaisesException : Obligations.NoCommandRaisesException := by
  refine ⟨fun c i s hd => ?_, exec_ne_fault, step_ne_fault⟩
  obtain ⟨lo, hi, ninf, he⟩ := exec_completes s (wellFormed_of_decode_legal hd)
  exact ⟨_, he⟩

/-! ### The outcome codes -/

/-- The two outcome codes of a legal command (60_exceptions R201). -/
theorem outcome_of_exec_next {i : Instr} {s t : State} (h : exec i s = .next t) :
    (i ≠ .log2 0 ∧ t.status = 0b001#3) ∨
      (i = .log2 0 ∧ t.status = 0b011#3 ∧ t.resLo = 0xFFFFFFFF ∧ t.resHi = 0) := by
  rcases exec_next_cases h with ⟨rfl, rfl⟩ | ⟨⟨a, b, rfl⟩, lo, hi, rfl⟩ | ⟨hne, -, lo, rfl⟩
  · exact .inr ⟨rfl, legalStatus_true, rfl, rfl⟩
  · exact .inl ⟨nofun, legalStatus_false⟩
  · exact .inl ⟨hne, legalStatus_false⟩

/-- Settles O19: an illegal command has the third code, a legal one a code of `outcome_of_exec_next`, and `LOG2` of 0 is the
command with the word 0x0C and `A = 0`. -/
theorem threeOutcomeCodes : Obligations.ThreeOutcomeCodes := by
  intro s c ha
  rw [← decode_eq_log2_iff]
  rcases step_of_accepts ha with ⟨why, hd, hs⟩ | ⟨i, hd, hs⟩
  · exact ⟨_, hs, .inr (.inr ⟨illegalStatus_eq, not_legalNumber_of_decode_illegal hd, rfl, rfl⟩)⟩
  · obtain ⟨lo, hi, ninf, he⟩ := exec_completes (consumeSample s) (wellFormed_of_decode_legal hd)
    refine ⟨_, hs.trans he, ?_⟩
    rcases outcome_of_exec_next he with ⟨hne, hst⟩ | ⟨rfl, hst, hlo, hhi⟩
    · exact .inl ⟨hst, (decode_isLegal_iff_legalNumber c).1 ⟨i, hd⟩, by simpa [hd] using hne⟩
    · obtain ⟨hcmd, hA⟩ := (decode_eq_log2_iff c 0).1 hd
      exact .inr (.inl ⟨hst, hcmd, hA, hlo, hhi⟩)

/-! ### The fault record -/

/-- No edge but an accepted illegal command touches the fault record. -/
theorem faultRecord_of_step_next {s t : State} (h : step s = .next t) (hl : ∀ c, Accepts s c → LegalNumber c.cmd) :
    t.faultRecord = s.faultRecord := by
  rcases step_cases s with ⟨-, hs⟩ | ⟨-, -, hs⟩ | ⟨-, -, -, hs⟩ | ⟨hr, hv, hw, ⟨_, hd, hs⟩ | ⟨i, -, hs⟩⟩ <;> rw [hs] at h
  · cases h
    rfl
  · cases h
    rfl
  · cases h
  · exact absurd (hl _ ⟨hw, hr, hv, rfl⟩) (not_legalNumber_of_decode_illegal hd)
  · obtain ⟨lo, hi, ninf, rfl⟩ := exec_next h
    rfl

/-- Settles O23: an accepted illegal command is one `respondIllegal`, which appends its word, and no other edge touches the
record. -/
theorem faultRecordIsKept : Obligations.FaultRecordIsKept := by
  refine fun s t h => ⟨fun c ha hl => ?_, faultRecord_of_step_next h⟩
  rw [step_of_accepts_not_legalNumber ha hl] at h
  cases h
  rfl

end Sys2Proof.Machine
end

section
/-! PROOFS of the family 70_reset_and_hazards. What reset edges leave, whatever stood in the block before (R230), that the
block never halts (R231, R242), and how the host reads the flags before the words (R238). -/

namespace Sys2Proof.Machine

/-! ### Reset -/

/-- Settles O9: `applyReset` after `consumeSample` is the record update of the statement. -/
theorem resetEdgeLoadsResetValues : Obligations.ResetEdgeLoadsResetValues := fun _ => step_of_rst

theorem step_of_reset_sample {s : State} {p : PortSample} {ps : List PortSample} (hp : p.rst = true)
    (hin : s.inputs = p :: ps) : step s = .next (applyReset { s with inputs := ps }) := by
  have hs : step s = .next (applyReset (consumeSample s)) := step_of_rst (by simpa [portsNow, hin] using hp)
  simpa [consumeSample, hin] using hs

/-- Every reset edge loads the same values, so several in a row leave what one leaves (R230). -/
theorem run_of_reset_samples {p : PortSample} {more rest : List PortSample} (hrst : ∀ q ∈ p :: more, q.rst = true)
    {s : State} (hin : s.inputs = p :: (more ++ rest)) :
    Host.Core.run Sys2Proof.core (more.length + 1) s = .next (applyReset { s with inputs := rest }) := by
  induction more generalizing p s with
  | nil => exact run_succ_of_step 0 (step_of_reset_sample (hrst p List.mem_cons_self) hin)
  | cons q qs ih =>
    obtain ⟨hp, hmore⟩ := List.forall_mem_cons.1 hrst
    exact (run_succ_of_step _ (step_of_reset_sample hp hin)).trans (ih hmore rfl)

/-- Settles O53: the ports after the run are those of a block just reset. -/
theorem resetEdgesShowResetValues : Obligations.ResetEdgesShowResetValues := by
  intro s p more rest hrst hin
  rw [Nat.add_comm]
  exact ⟨_, run_of_reset_samples hrst hin, outputPorts_applyReset _, rfl⟩

/-! ### The block never halts -/

/-- Settles O17: `run_completes_of_wasReset` without what it says of the samples. -/
theorem blockNeverHalts : Obligations.BlockNeverHalts := fun k _ hw =>
  have ⟨t, hrun, hwt, _⟩ := run_completes_of_wasReset k hw
  ⟨t, hrun, hwt⟩

/-! ### Flags before value -/

theorem interpretOutputs_of_not_rvalid {o : Outputs} (hr : rvalidBit o.resStatus = false) :
    interpretOutputs o = .noResponse := by
  simp [interpretOutputs, hr]

theorem interpretOutputs_of_ill {o : Outputs} (hr : rvalidBit o.resStatus = true) (hi : illBit o.resStatus = true) :
    interpretOutputs o = .illegalCommand := by
  simp [interpretOutputs, hr, hi]

theorem interpretOutputs_of_ninf {o : Outputs} (hr : rvalidBit o.resStatus = true) (hi : illBit o.resStatus = false)
    (hn : ninfBit o.resStatus = true) : interpretOutputs o = .negInf := by
  simp [interpretOutputs, hr, hi, hn]

theorem interpretOutputs_of_rvalid_alone {o : Outputs} (hr : rvalidBit o.resStatus = true)
    (hi : illBit o.resStatus = false) (hn : ninfBit o.resStatus = false) :
    interpretOutputs o = .words o.resHi o.resLo := by
  simp [interpretOutputs, hr, hi, hn]

theorem status_eq_rvalid_alone_iff (st : BitVec 3) :
    st = 0b001#3 ↔ rvalidBit st = true ∧ illBit st = false ∧ ninfBit st = false := by
  revert st; decide

/-- The host looks at `RVALID`, then `ILL`, then `NINF`, and takes the words where none of them says otherwise. -/
theorem interpretOutputs_eq_words_iff (o : Outputs) :
    interpretOutputs o = .words o.resHi o.resLo ↔ o.resStatus = 0b001#3 := by
  rw [status_eq_rvalid_alone_iff]
  cases hr : rvalidBit o.resStatus with
  | false => simp [interpretOutputs_of_not_rvalid hr]
  | true =>
    cases hi : illBit o.resStatus with
    | true => simp [interpretOutputs_of_ill hr hi]
    | false =>
      cases hn : ninfBit o.resStatus with
      | true => simp [interpretOutputs_of_ninf hr hi hn]
      | false => simp [interpretOutputs_of_rvalid_alone hr hi hn]

/-- Settles O45: 0b101 is `illegalStatus` and 0b011 is the status of a legal command with `NINF` set. -/
theorem flagsBeforeValue : Obligations.FlagsBeforeValue := by
  refine fun o => ⟨interpretOutputs_eq_words_iff o, interpretOutputs_of_not_rvalid, fun h => ?_, fun h => ?_⟩
  · rw [← illegalStatus_eq] at h
    exact interpretOutputs_of_ill (by simp [h]) (by simp [h])
  · rw [← legalStatus_true] at h
    exact interpretOutputs_of_ninf (by simp [h]) (by simp [h]) (by simp [h])

end Sys2Proof.Machine
end
